-- ==== Sys2Proof/Word.lean ====
section
/-! DEFINITION. The word types of the engine (R7: every value is unsigned; u8, u32 and u64) and the
four-word tuple in which the Digest State and the working variables come (R20, R21). -/

namespace Sys2Proof

/-- A u8 (R7). -/
abbrev Byte := BitVec 8

/-- A u32 (R7): register contents, accumulators, working variables, message words. -/
abbrev Word := BitVec 32

/-- A u64 (R7): BITLEN and LENF. -/
abbrev DWord := BitVec 64

/-- Four u32 values in the order the source names them: the Digest State (A, B, C, D) of R20, and the
working variables (a, b, c, d) of R21. -/
@[ext]
structure Quad where
  a : Word
  b : Word
  c : Word
  d : Word
  deriving DecidableEq, Repr

end Sys2Proof
end

