-- ==== Sys2Proof/Syntax.lean ====
section
/-! DEFINITION. The command words the engine executes: one constructor for each row of
spec/opcode_table.json (R72, R79). -/

namespace Sys2Proof

/-- A command (R72). The message bytes are no operand of the word: PUSH takes them from DATA (R73). -/
inductive Instr where
  /-- INIT: start a fresh computation (R154). -/
  | init
  /-- PUSH: append message bytes (R155). `nb` is the two-bit field NB; the byte count is `nb + 1` (R73). -/
  | push (nb : BitVec 2)
  /-- FINAL: pad, compress the last block or blocks, produce the digest (R156). -/
  | final
  deriving DecidableEq, Repr

end Sys2Proof
end

