-- ==== Sys2Proof/Config.lean ====
section
/-! DEFINITION. What an instance of the engine fixes before it runs (R6): the length-field variant and
the base address of the register window. No step writes it. -/

namespace Sys2Proof

/-- `LEN_MODE` (R3, R6): how the 8-byte length field is filled. -/
inductive LenMode where
  /-- Only the low 32 bits of the bit length are carried; the high 32 bits are zero. This hardware (D8). -/
  | trunc32
  /-- The true 64-bit value. -/
  | full64
  deriving DecidableEq, Repr

/-- The parameters of one instance (R6). `CYCLES_PER_BLOCK` is not among them: no rule depends on it (R217). -/
@[ext]
structure Config where
  lenMode : LenMode
  /-- `ENGINE_BASE`: the address of the window's first byte in the host's address space (R58). -/
  engineBase : Nat
  deriving DecidableEq, Repr

/-- The hardware of this spec: `LEN_MODE = TRUNC32` (R3). `ENGINE_BASE` is OPEN (R6).
DESIGN CHOICE (log entry 4, unsafe): State.reset places the window at address 0. -/
def Config.reset : Config where
  lenMode := .trunc32
  engineBase := 0

end Sys2Proof
end

