-- ==== Sys2Proof/Machine/Transaction.lean ====
section
/-! DEFINITION. What the host agent can do (R11, R51, R70, R77, R78): register names, bus accesses, host
statements, the pseudo-instructions of the host's assembly syntax, and whose turn it is in the total
order of events (R59). -/

namespace Sys2Proof

/-- The registers of the window (R58). -/
inductive Reg where
  | cmd
  | status
  | data
  | cfg
  | digest0
  | digest1
  | digest2
  | digest3
  deriving DecidableEq, Repr

/-- How wide a host access is (R52). -/
inductive Width where
  /-- 1 byte: BUS_ERR. -/
  | byte
  /-- 2 bytes: BUS_ERR. -/
  | half
  /-- 3 bytes: BUS_ERR. DEDUCED (log entry 21, safe): R52 and U8 name 1 and 2 bytes, R191 and D11 whatever is narrower
  than 32 bits. -/
  | three
  /-- 4 bytes: the one width the window serves (R51). -/
  | word
  /-- Wider than 4 bytes: outside the interface (U9). -/
  | wide
  deriving DecidableEq, Repr

/-- A host access as the bus carries it. The address is one of the host's address space, in which the
window stands at `ENGINE_BASE` (R58). -/
structure Access where
  width : Width
  addr : Nat
  deriving DecidableEq, Repr

/-- A statement of the host on the bus. -/
inductive HostOp where
  /-- `tN <- RegRead`: one read, its value loaded into host temporary `tN` (R77). -/
  | read (acc : Access) (dst : Nat)
  /-- One write (R77). -/
  | write (acc : Access) (v : Word)
  /-- Read until `(x AND mask) = val` (R77): one read each time the host moves. -/
  | poll (acc : Access) (mask val : Word)
  deriving DecidableEq, Repr

/-- Which event comes next in the total order of R59. -/
inductive Turn where
  /-- A host transaction. -/
  | host
  /-- An engine step (R159, R160). -/
  | engine
  /-- The reset event (R210). -/
  | reset
  deriving DecidableEq, Repr

/-- A statement of the host's assembly syntax (R77). -/
inductive Stmt where
  | wr (r : Reg) (v : Word)
  | rd (t : Nat) (r : Reg)
  | poll (r : Reg) (mask val : Word)
  deriving DecidableEq, Repr

/-- The pseudo-instructions of R78. -/
inductive Pseudo where
  | init
  | push (n : Nat)
  | final
  | waitidle
  | waitdone
  | pushn (v : Word) (n : Nat)
  | pushw (v : Word)
  | pushb (v : Word)
  | readdigest
  | md5 (bytes : List Byte)
  deriving DecidableEq, Repr

end Sys2Proof
end

