-- ==== Sys2Proof/WellFormed.lean ====
section
/-! DEFINITION. Which terms of the syntax are well formed: what the types alone do not say. -/

namespace Sys2Proof

/-- Every term of `Instr` is a command: INIT and FINAL have no operand and NB is a field of exactly two
bits, all four of whose values are legal for PUSH (R72, R73). -/
def Instr.wellFormed : Instr → Bool
  | .init => true
  | .push _ => true
  | .final => true

/-- `ENGINE_BASE` "must be a multiple of 32" (R58). -/
def Config.wellFormed (c : Config) : Bool := c.engineBase % 32 = 0

/-- The byte count of a pseudo-instruction is 1, 2, 3 or 4 (R78: `push n` (n = 1..4)). -/
def Pseudo.wellFormed : Pseudo → Bool
  | .init => true
  | .push n => 1 ≤ n && n ≤ 4
  | .final => true
  | .waitidle => true
  | .waitdone => true
  | .pushn _ n => 1 ≤ n && n ≤ 4
  | .pushw _ => true
  | .pushb _ => true
  | .readdigest => true
  | .md5 _ => true

end Sys2Proof
end

