-- ==== Sys2Proof/Decode.lean ====
section
/-! DEFINITION. Decoding a command word (R71 to R76), total on every u32, and the encoder from the same
table. Nothing but the word enters: no mode bit changes the decode (R76). -/

namespace Sys2Proof

/-- Why a word is ILLEGAL (R74). All reasons have the same effect (R75). -/
inductive Illegal where
  /-- RSV = bits 31:6 are not zero. -/
  | reservedBits
  /-- OPC is 0x0 or 0x4..0xF (R72). -/
  | opcode
  /-- INIT or FINAL with NB ≠ 0 (R71). -/
  | nbNotZero
  deriving DecidableEq, Repr

/-- What decode answers: a command or ILLEGAL (R74). -/
inductive Decoded where
  | command (i : Instr)
  | illegal (why : Illegal)
  deriving DecidableEq, Repr

/-- OPC = bits 3:0 (R71). -/
def fieldOpc (v : Word) : BitVec 4 := v.extractLsb' 0 4

/-- NB = bits 5:4 (R71). -/
def fieldNb (v : Word) : BitVec 2 := v.extractLsb' 4 2

/-- RSV = bits 31:6 (R71). -/
def fieldRsv (v : Word) : BitVec 26 := v.extractLsb' 6 26

/-- R74, in its order of tests. -/
def decode (v : Word) : Decoded :=
  if fieldRsv v ≠ 0 then .illegal .reservedBits
  else if fieldOpc v = 0x1 then
    if fieldNb v = 0 then .command .init else .illegal .nbNotZero
  else if fieldOpc v = 0x2 then .command (.push (fieldNb v))
  else if fieldOpc v = 0x3 then
    if fieldNb v = 0 then .command .final else .illegal .nbNotZero
  else .illegal .opcode

/-- A command word from its fields (R71): OPC in bits 3:0, NB in bits 5:4. RSV is zero in every legal word. -/
def formatC (nb : BitVec 2) (opc : BitVec 4) : Word := (nb.setWidth 32 <<< 4) ||| opc.setWidth 32

/-- The legal word of a command (R72). -/
def encode : Instr → Word
  | .init => formatC 0 0x1
  | .push nb => formatC nb 0x2
  | .final => formatC 0 0x3

/-- The command in a decoder's answer, where there is one. -/
def Decoded.command? : Decoded → Option Instr
  | .command i => some i
  | .illegal _ => none

/-- The command word the host's row number stands for: the low `nbits` bits of `w`, zeros above (R76:
every command is one 32-bit word). -/
def tableWord (nbits w : Nat) : Word := BitVec.ofNat 32 (w % 2 ^ nbits)

/-- The instruction the decoder reads from a row's word, none where it is ILLEGAL. -/
def decodeTableWord (nbits w : Nat) : Option Instr := (decode (tableWord nbits w)).command?

end Sys2Proof
end

