-- ==== Sys2Proof/Machine/Bits.lean ====
section
/-! DEFINITION. Bit-field and byte-order helpers (R7, R54, R111). -/

namespace Sys2Proof.Machine

/-- Byte j of a value: bits 8j+7..8j (R7). -/
def byteOf {n : Nat} (v : BitVec n) (j : Nat) : Byte := v.extractLsb' (8 * j) 8

/-- LE32 of R7: b0 + 2^8·b1 + 2^16·b2 + 2^24·b3. -/
def le32 (b0 b1 b2 b3 : Byte) : Word :=
  BitVec.ofNat 32 (b0.toNat + 2 ^ 8 * b1.toNat + 2 ^ 16 * b2.toNat + 2 ^ 24 * b3.toNat)

/-- bytesLE32 of R7. -/
def bytesLE32 (x : Word) : List Byte := [byteOf x 0, byteOf x 1, byteOf x 2, byteOf x 3]

/-- LE64 of R7. -/
def le64 (v : DWord) : List Byte :=
  [byteOf v 0, byteOf v 1, byteOf v 2, byteOf v 3, byteOf v 4, byteOf v 5, byteOf v 6, byteOf v 7]

/-- `rotl32(x, n)` (R111). The spec lets a model define it for every n by n mod 32; every n used is an
entry of R, 4 to 23 (R35). -/
def rotl32 (x : Word) (n : Nat) : Word := (x <<< (n % 32)) ||| (x >>> (32 - n % 32))

end Sys2Proof.Machine
end

