-- ==== Sys2Proof/Machine/Rom.lean ====
section
/-! DEFINITION. The constants of the engine: the initial value IV (R20), the round constant ROM K (R34) and
the rotation ROM R (R35). No agent can write them. -/

namespace Sys2Proof.Machine

/-- IV (R20). -/
def iv : Quad where
  a := 0x67452301
  b := 0xefcdab89
  c := 0x98badcfe
  d := 0x10325476

/-- K[0..15] (R34). -/
def kRange0 : List Word :=
  [0xd76aa478, 0xe8c7b756, 0x242070db, 0xc1bdceee,
   0xf57c0faf, 0x4787c62a, 0xa8304613, 0xfd469501,
   0x698098d8, 0x8b44f7af, 0xffff5bb1, 0x895cd7be,
   0x6b901122, 0xfd987193, 0xa679438e, 0x49b40821]

/-- K[16..31] (R34). -/
def kRange1 : List Word :=
  [0xf61e2562, 0xc040b340, 0x265e5a51, 0xe9b6c7aa,
   0xd62f105d, 0x02441453, 0xd8a1e681, 0xe7d3fbc8,
   0x21e1cde6, 0xc33707d6, 0xf4d50d87, 0x455a14ed,
   0xa9e3e905, 0xfcefa3f8, 0x676f02d9, 0x8d2a4c8a]

/-- K[32..47] (R34). -/
def kRange2 : List Word :=
  [0xfffa3942, 0x8771f681, 0x6d9d6122, 0xfde5380c,
   0xa4beea44, 0x4bdecfa9, 0xf6bb4b60, 0xbebfbc70,
   0x289b7ec6, 0xeaa127fa, 0xd4ef3085, 0x04881d05,
   0xd9d4d039, 0xe6db99e5, 0x1fa27cf8, 0xc4ac5665]

/-- K[48..63] (R34). -/
def kRange3 : List Word :=
  [0xf4292244, 0x432aff97, 0xab9423a7, 0xfc93a039,
   0x655b59c3, 0x8f0ccc92, 0xffeff47d, 0x85845dd1,
   0x6fa87e4f, 0xfe2ce6e0, 0xa3014314, 0x4e0811a1,
   0xf7537e82, 0xbd3af235, 0x2ad7d2bb, 0xeb86d391]

/-- The round constant ROM K[0..63] (R34): floor(2^32 · |sin(i+1)|), transcribed and not evaluated (D22). -/
def kTable : List Word := kRange0 ++ kRange1 ++ kRange2 ++ kRange3

/-- K[i]. -/
def kAt (i : Nat) : Word := kTable.getD i 0

/-- C[q] of R35: the cycle of four rotation amounts of rounds 16q..16q+15. -/
def rotCycle : Nat → List Nat
  | 0 => [7, 12, 17, 22]
  | 1 => [5, 9, 14, 20]
  | 2 => [4, 11, 16, 23]
  | _ => [6, 10, 15, 21]

/-- R[i] = C[i div 16][i mod 4] (R35). -/
def rAt (i : Nat) : Nat := (rotCycle (i / 16)).getD (i % 4) 0

end Sys2Proof.Machine
end

