-- ==== Sys2Proof/Machine/Compression.lean ====
section
/-! DEFINITION. Block compression (41_compression.md): the message words of a block, the mixing functions,
one round, and the 64-round sequence. All are total functions of their operands (R121); every
addition is modulo 2^32 and sets nothing (R112). -/

namespace Sys2Proof.Machine

/-- w[j] of R110, for a block given by its bytes. -/
def messageWord (blk : Nat → Byte) (j : Nat) : Word :=
  le32 (blk (4 * j)) (blk (4 * j + 1)) (blk (4 * j + 2)) (blk (4 * j + 3))

/-- F (R113). -/
def mixF (b c d : Word) : Word := (b &&& c) ||| (~~~b &&& d)

/-- G (R114). -/
def mixG (b c d : Word) : Word := (d &&& b) ||| (~~~d &&& c)

/-- H (R115). -/
def mixH (b c d : Word) : Word := b ^^^ c ^^^ d

/-- I (R116). -/
def mixI (b c d : Word) : Word := c ^^^ (b ||| ~~~d)

/-- `fsel(i) = [F, G, H, I][i div 16]` (R117). -/
def fsel (i : Nat) : Word → Word → Word → Word :=
  match i / 16 with
  | 0 => mixF
  | 1 => mixG
  | 2 => mixH
  | _ => mixI

/-- g(i), the index of the message word round i reads (R117). -/
def gsel (i : Nat) : Nat :=
  match i / 16 with
  | 0 => i
  | 1 => (5 * i + 1) % 16
  | 2 => (3 * i + 5) % 16
  | _ => (7 * i) % 16

/-- ROUND(i) (R118), the simultaneous form. It is used for i = 0..63 only. -/
def round (i : Nat) (q : Quad) (w : Nat → Word) : Quad :=
  let f := fsel i q.b q.c q.d
  let t := q.a + f + kAt i + w (gsel i)
  { a := q.d, b := q.b + rotl32 t (rAt i), c := q.b, d := q.c }

/-- The working variables after rounds 0..n-1 of a block, started from the state S (R119). -/
def roundsUpTo (S : Quad) (blk : Nat → Byte) : Nat → Quad
  | 0 => S
  | n + 1 => round n (roundsUpTo S blk n) (messageWord blk)

/-- ROUNDS64 (R119). -/
def rounds64 (S : Quad) (blk : Nat → Byte) : Quad := roundsUpTo S blk 64

end Sys2Proof.Machine
end

