-- ==== Sys2Proof/Machine/Padding.lean ====
section
/-! DEFINITION. Padding and framing (40_padding.md): the padded length, the length-field value and PAD itself as
the source gives it, a pure function from a message to the padded message. The engine forms the
same blocks one at a time (R99). -/

namespace Sys2Proof.Machine

/-- N(L), the number of blocks of the padded message (R95). -/
def blockCount (L : Nat) : Nat := (L + 9 + 63) / 64

/-- P(L), the padded length in bytes (R91). -/
def paddedLength (L : Nat) : Nat := 64 * blockCount L

/-- The length-field value a bit counter gives (R93): TRUNC32 carries bits 31:0 and zeros above. -/
def lengthField (m : LenMode) (bitlen : DWord) : DWord :=
  match m with
  | .trunc32 => (bitlen.setWidth 32).setWidth 64
  | .full64 => bitlen

/-- LENVAL(L) (R93). -/
def lenVal (m : LenMode) (L : Nat) : DWord := lengthField m (BitVec.ofNat 64 (8 * L))

/-- PAD(m) (R90, R92): the message, the marker byte 0x80, zero bytes, and the 8-byte little-endian length field. -/
def pad (lm : LenMode) (m : List Byte) : List Byte :=
  m ++ 0x80 :: (List.replicate (paddedLength m.length - m.length - 9) 0x00 ++ le64 (lenVal lm m.length))

/-- The document's `LengthOverflow` condition for a message of L bytes (R97). -/
def lengthOverflow (lm : LenMode) (L : Nat) : Bool :=
  match lm with
  | .trunc32 => 2 ^ 32 ≤ 8 * L
  | .full64 => 2 ^ 64 ≤ 8 * L

end Sys2Proof.Machine
end

