-- ==== Sys2Proof/Machine/Accumulation.lean ====
section
/-! DEFINITION. State accumulation and the digest function (42_accumulation.md). -/

namespace Sys2Proof.Machine

/-- ACCUMULATE(S, (a, b, c, d)) (R140): four sums modulo 2^32, no carry between words. -/
def accumulate (S q : Quad) : Quad where
  a := S.a + q.a
  b := S.b + q.b
  c := S.c + q.c
  d := S.d + q.d

/-- One block folded into the state (R140, R119). -/
def compressBlock (S : Quad) (blk : Nat → Byte) : Quad := accumulate S (rounds64 S blk)

/-- The Digest State after the first n blocks of a byte sequence, in order (R141, R96). -/
def chain (S : Quad) (bytes : Nat → Byte) : Nat → Quad
  | 0 => S
  | n + 1 => compressBlock (chain S bytes n) fun k => bytes (64 * n + k)

/-- A byte sequence by index; past its end there is nothing to read, and no rule does. -/
def byteAt (bs : List Byte) (k : Nat) : Byte := bs.getD k 0

/-- The state S of DIGEST_FN(m) before it is serialised (R142). -/
def digestState (lm : LenMode) (m : List Byte) : Quad :=
  chain iv (byteAt (pad lm m)) (blockCount m.length)

/-- SERIALIZE(S) (R143). -/
def serialize (S : Quad) : List Byte :=
  bytesLE32 S.a ++ bytesLE32 S.b ++ bytesLE32 S.c ++ bytesLE32 S.d

/-- DIGEST_FN(m) (R142). -/
def digestFn (lm : LenMode) (m : List Byte) : List Byte := serialize (digestState lm m)

end Sys2Proof.Machine
end

