-- ==== Sys2Proof/Machine/State.lean ====
section
/-! DEFINITION. The state of the machine: the engine's tuple exactly as R41 lists it, the configuration the step
takes as an argument, the host agent (its remaining statements and its temporaries), and whose turn
it is. Plain data throughout. -/

namespace Sys2Proof.Machine

/-- BUF as (index, byte) pairs in one canonical form: indexes strictly rising and below 64, no entry equal
to what an unlisted index reads as (`Memory.fill`). -/
abbrev Memory := List Host.Cell

/-- `STAGE` (R27). -/
inductive Stage where
  /-- No block is being compressed. -/
  | idle
  /-- Rounds RND..63 of the current block remain. -/
  | rounds
  /-- The 64 rounds are done and the accumulation step is due. -/
  | accum
  deriving DecidableEq, Repr

/-- `MODE` (R28). -/
inductive Mode where
  /-- Message bytes are accepted. -/
  | absorb
  /-- FINAL has been accepted and the padding blocks are being compressed. -/
  | finalizing
  /-- The digest is complete. -/
  | done
  deriving DecidableEq, Repr

/-- The engine's state: the tuple of R41 and nothing else. BUSY, DONE, STATUS, CFG and DIGEST0..3 are
functions of it (R29, R32, R33), CMD holds no state (R30). -/
@[ext]
structure Engine where
  /-- ACC_A, ACC_B, ACC_C, ACC_D (R20). -/
  acc : Quad
  /-- The working variables a, b, c, d (R21). -/
  wv : Quad
  /-- BUF[0..63] (R22). -/
  buf : Memory
  /-- CNT, 0..64 (R23). -/
  cnt : Nat
  /-- BITLEN (R24). -/
  bitlen : DWord
  /-- PEND, 0 to 3 bytes (R25). -/
  pend : List Byte
  /-- RND (R26). -/
  rnd : Fin 64
  /-- STAGE (R27). -/
  stage : Stage
  /-- MODE (R28). -/
  mode : Mode
  /-- FIN2: a second padding block is still to be compressed (R28). -/
  fin2 : Bool
  /-- LENF: the length-field value latched by FINAL (R28). -/
  lenf : DWord
  /-- ERR_CMD, sticky (R29). -/
  errCmd : Bool
  /-- ERR_BUSY, sticky (R29). -/
  errBusy : Bool
  /-- LEN_OVF, sticky (R29). -/
  lenOvf : Bool
  /-- DATA (R31). -/
  data : Word
  deriving DecidableEq, Repr

/-- The machine: the engine, the parameters of the instance, the host agent and the order of events. -/
@[ext]
structure State where
  engine : Engine
  /-- LEN_MODE and ENGINE_BASE (R6). No step writes them. -/
  config : Config
  /-- The host's remaining statements, first one next (R77). The model's own field. -/
  prog : List HostOp
  /-- The host temporaries loaded so far, numbers strictly rising (R77). The model's own field. -/
  temps : List (Nat × Word)
  /-- Who moves next (R59). Once it is used up, the engine moves while BUSY = 1, then the host. The model's
  own field (log entry 6). -/
  turns : List Turn
  deriving DecidableEq, Repr

/-- Why a run stops with a fault. -/
inductive Fault where
  /-- BUS_ERR(off): a host access to the window that is narrower than 32 bits (3 bytes: log entry 21) or whose offset is
  not a multiple of 4 (R52, R191). Raised by a host turn. Safe: the spec says the run faults (R192). -/
  | busErr (off : Nat)
  /-- PUSH or FINAL would write BUF[CNT] with CNT ≥ 64, a byte that does not exist. Raised by those two commands in
  states that no run reaches (R39.1, R153's precondition). Safe: the model stops (log entry 9). -/
  | bufRange
  deriving DecidableEq, Repr

/-- Why a step is refused: what the model has no move for. -/
inductive Refusal where
  /-- The instruction has no meaning yet. Raised by exec's arms only. -/
  | notModelled (mnemonic : String)
  /-- A host access wider than 4 bytes: outside the interface (R52, U9: refuse). Raised by a host turn. Safe. -/
  | wideAccess
  /-- A host access outside the 32-byte window: the platform's concern (R52, U10: refuse). Raised by a host turn. Safe. -/
  | outsideWindow
  deriving DecidableEq, Repr

/-- The engine after the reset event (R40, R210). The working variables and BUF are unspecified there: DESIGN
CHOICE zeros (log entry 1) and nothing listed (log entry 2), both unsafe. -/
def Engine.reset : Engine where
  acc := iv
  wv := { a := 0, b := 0, c := 0, d := 0 }
  buf := []
  cnt := 0
  bitlen := 0
  pend := []
  rnd := 0
  stage := .idle
  mode := .absorb
  fin2 := false
  lenf := 0
  errCmd := false
  errBusy := false
  lenOvf := false
  data := 0

/-- The machine right after reset: no host program is loaded (log entry 10) and no turn is fixed. -/
def State.reset : State where
  engine := Engine.reset
  config := Config.reset
  prog := []
  temps := []
  turns := []

end Sys2Proof.Machine
end

