-- ==== Sys2Proof/Machine/Flags.lean ====
section
/-! DEFINITION. The flags: the derived bits BUSY and DONE, the STATUS and CFG words, the sticky error bits and
the length-overflow computation (R29, R32, R38, R153, R191). No arithmetic of the datapath writes a
flag (R38). -/

namespace Sys2Proof.Machine

/-- BUSY = (STAGE ≠ IDLE) (R29). -/
def Engine.busy (e : Engine) : Bool := e.stage ≠ .idle

/-- DONE = (MODE = DONE) (R29). -/
def Engine.isDone (e : Engine) : Bool := e.mode = .done

/-- A bit as a u32 at position k. -/
def flagBit (b : Bool) (k : Nat) : Word := (BitVec.ofBool b).setWidth 32 <<< k

/-- The STATUS word: LEN_OVF<<4 | ERR_BUSY<<3 | ERR_CMD<<2 | DONE<<1 | BUSY, bits 31:5 zero (R29, R150). -/
def Engine.status (e : Engine) : Word :=
  flagBit e.lenOvf 4 ||| flagBit e.errBusy 3 ||| flagBit e.errCmd 2 ||| flagBit e.isDone 1 ||| flagBit e.busy 0

/-- The CFG word: bit 0 is LEN64, bits 31:1 are zero (R32). -/
def cfgWord (m : LenMode) : Word :=
  match m with
  | .trunc32 => 0x00000000
  | .full64 => 0x00000001

/-- set ERR_CMD (R8, R152). -/
def Engine.setErrCmd (e : Engine) : Engine := { e with errCmd := true }

/-- set ERR_BUSY (R8, R152). -/
def Engine.setErrBusy (e : Engine) : Engine := { e with errBusy := true }

/-- Whether absorbing one byte sets LEN_OVF (R153): the exact sum `nb` carries out of 64 bits, or under
TRUNC32 the new BITLEN is 2^32 or more. -/
def absorbOverflows (m : LenMode) (nb : Nat) : Bool :=
  2 ^ 64 ≤ nb ||
    match m with
    | .trunc32 => 2 ^ 32 ≤ nb % 2 ^ 64
    | .full64 => false

end Sys2Proof.Machine
end

