-- ==== Sys2Proof/Machine/Operands.lean ====
section
/-! DEFINITION. The one operand form of the command words (R73): PUSH's byte count, and the bytes of DATA it names. -/

namespace Sys2Proof.Machine

/-- n = zext(NB) + 1, so 1 ≤ n ≤ 4 (R73). -/
def pushCount (nb : BitVec 2) : Nat := nb.toNat + 1

/-- The n bytes DATA[7:0], DATA[15:8], …, DATA[8n-1:8n-8], first byte of the message first (R73, R155). -/
def dataBytes (data : Word) (n : Nat) : List Byte := (List.range n).map (byteOf data)

end Sys2Proof.Machine
end

