-- ==== Sys2Proof/Machine/Ops.lean ====
section
/-! DEFINITION. The named operations over BUF, over the engine's registers and over the machine's state. The spec has
no exception entry and no return (R190, R195): every detected condition is a sticky flag, written
by `Engine.setErrCmd`, `Engine.setErrBusy` and `absorbByte`, or a bus error. -/

namespace Sys2Proof.Machine

/-! ### BUF -/

/-- What an unlisted byte of BUF reads as. R40 leaves BUF unspecified after reset; DESIGN CHOICE (log entry 2). -/
def Memory.fill : Byte := 0x00

/-- BUF[a] (R8). -/
def Memory.read : Memory → Nat → Byte
  | [], _ => Memory.fill
  | (k, v) :: m, a => if k = a then v else Memory.read m a

/-- The pairs without those of index a. -/
def Memory.erase : Memory → Nat → Memory
  | [], _ => []
  | (k, v) :: m, a => if k = a then Memory.erase m a else (k, v) :: Memory.erase m a

/-- A pair entered before the first larger index. -/
def Memory.insert : Memory → Nat → Byte → Memory
  | [], a, v => [(a, v)]
  | (k, w) :: m, a, v => if k < a then (k, w) :: Memory.insert m a v else (a, v) :: (k, w) :: m

/-- A byte at an index, in canonical form: the byte that unlisted indexes read as is not listed. -/
def Memory.enter (m : Memory) (a : Nat) (v : Byte) : Memory :=
  if v = Memory.fill then Memory.erase m a else Memory.insert (Memory.erase m a) a v

/-- BUF[a] <- v (R8). BUF has the indexes 0..63 and no other (R50); PUSH and FINAL check theirs first
(`requireRoom`), so no step asks for another. -/
def Memory.write (m : Memory) (a : Nat) (v : Byte) : Memory :=
  if a < 64 then Memory.enter m a v else m

/-- Bytes written one after another from index a up. -/
def Memory.writeBytes : Memory → Nat → List Byte → Memory
  | m, _, [] => m
  | m, a, v :: vs => Memory.writeBytes (Memory.write m a v) (a + 1) vs

/-- Indexes strictly rising from `low`, below 64, and no entry that an unlisted index would read as. -/
def Memory.wfFrom : Nat → Memory → Bool
  | _, [] => true
  | low, (k, v) :: m => low ≤ k && k < 64 && v != Memory.fill && Memory.wfFrom (k + 1) m

/-- The canonical form of BUF. -/
def Memory.wf (m : Memory) : Bool := Memory.wfFrom 0 m

/-! ### Starting a block and absorbing bytes -/

/-- PEND <- bs (R158). -/
def Engine.withPend (e : Engine) (bs : List Byte) : Engine := { e with pend := bs }

/-- DATA <- v (R151). -/
def Engine.withData (e : Engine) (v : Word) : Engine := { e with data := v }

/-- START_BLOCK (R157): BUSY becomes 1 in the same event. -/
def startBlock (e : Engine) : Engine := { e with wv := e.acc, rnd := 0, stage := .rounds }

/-- ABSORB_BYTE(x) (R153). -/
def absorbByte (m : LenMode) (x : Byte) (e : Engine) : Engine :=
  let nb := e.bitlen.toNat + 8
  let e' := { e with
    buf := Memory.write e.buf e.cnt x
    cnt := e.cnt + 1
    bitlen := BitVec.ofNat 64 nb
    lenOvf := e.lenOvf || absorbOverflows m nb }
  if e'.cnt = 64 then startBlock e' else e'

/-- ABSORB_LIST(bs) (R158). -/
def absorbList (m : LenMode) : List Byte → Engine → Engine
  | [], e => e.withPend []
  | x :: bs, e =>
    let e' := absorbByte m x (e.withPend [])
    if e'.stage ≠ .idle then e'.withPend bs else absorbList m bs e'

/-! ### The padding FINAL writes -/

/-- What FINAL writes from BUF[c] up (R156, R99): the marker, zeros, and, if they fit (c ≤ 55), the 8 bytes of the
length field. -/
def finalTail (c : Nat) (lenf : DWord) : List Byte :=
  if c ≤ 55 then 0x80 :: (List.replicate (55 - c) 0x00 ++ le64 lenf)
  else 0x80 :: List.replicate (63 - c) 0x00

/-- The second padding block: 56 zero bytes and the length field (R160, R99). -/
def secondBlock (lenf : DWord) : List Byte := List.replicate 56 0x00 ++ le64 lenf

/-! ### The state -/

/-- The state with another engine. -/
def State.withEngine (s : State) (e : Engine) : State := { s with engine := e }

/-- The state with other host statements left. -/
def State.withProg (s : State) (p : List HostOp) : State := { s with prog := p }

/-- The state with other temporaries. -/
def State.withTemps (s : State) (ts : List (Nat × Word)) : State := { s with temps := ts }

/-- The state with another list of turns. -/
def State.withTurns (s : State) (ts : List Turn) : State := { s with turns := ts }

/-- `tN <- x`: the pairs stay sorted by number, one pair a number. -/
def loadTemp : List (Nat × Word) → Nat → Word → List (Nat × Word)
  | [], t, x => [(t, x)]
  | (k, y) :: ts, t, x =>
    if k < t then (k, y) :: loadTemp ts t x
    else if k = t then (t, x) :: ts
    else (t, x) :: (k, y) :: ts

/-- The value of tN, none where the host has not loaded it. -/
def tempAt : List (Nat × Word) → Nat → Option Word
  | [], _ => none
  | (k, y) :: ts, t => if k = t then some y else tempAt ts t

/-! ### The checks of a command word, in the order of R152 and R194 -/

/-- What a command answers. -/
abbrev Answer := Host.Outcome State Fault Refusal

/-- Check 1: a command written while BUSY = 1 is dropped and sets ERR_BUSY (R152). -/
def unlessBusy (s : State) (k : Answer) : Answer :=
  if s.engine.busy then .next (s.withEngine s.engine.setErrBusy) else k

/-- Check 3: PUSH and FINAL after DONE set ERR_CMD (R152). -/
def unlessDone (s : State) (k : Answer) : Answer :=
  if s.engine.isDone then .next (s.withEngine s.engine.setErrCmd) else k

/-- R153's precondition CNT ≤ 63: BUF[CNT] exists. It holds in every reachable idle state (R39.1); in the others
the model faults (log entry 9). -/
def requireRoom (s : State) (k : Answer) : Answer :=
  if s.engine.cnt < 64 then k else .fault .bufRange

/-- An ILLEGAL word: ERR_BUSY while BUSY = 1, else ERR_CMD, and nothing else (R75, R152). -/
def rejectIllegal (s : State) : Answer :=
  unlessBusy s (.next (s.withEngine s.engine.setErrCmd))

end Sys2Proof.Machine
end

