-- ==== Sys2Proof/Machine/Commands.lean ====
section
/-! DEFINITION. The three commands (R154 to R156), each with the checks of R152 before it. -/

namespace Sys2Proof.Machine

/-- INIT_CMD (R154). DATA, BUF, the working variables, RND and STAGE are unchanged. -/
def initCommand (e : Engine) : Engine :=
  { e with
    acc := iv, cnt := 0, bitlen := 0, pend := [], fin2 := false, lenf := 0
    mode := .absorb, errCmd := false, errBusy := false, lenOvf := false }

/-- PUSH_CMD(n) (R155). -/
def pushCommand (m : LenMode) (nb : BitVec 2) (e : Engine) : Engine :=
  absorbList m (dataBytes e.data (pushCount nb)) e

/-- FINAL_CMD (R156). -/
def finalCommand (m : LenMode) (e : Engine) : Engine :=
  let lenf := lengthField m e.bitlen
  startBlock { e with
    lenf := lenf
    buf := Memory.writeBytes e.buf e.cnt (finalTail e.cnt lenf)
    fin2 := decide (55 < e.cnt)
    mode := .finalizing }

/-- INIT (R154): accepted whenever BUSY = 0 (R152, D5). -/
def execInit (s : State) : Answer :=
  unlessBusy s (.next (s.withEngine (initCommand s.engine)))

/-- PUSH n (R155). -/
def execPush (nb : BitVec 2) (s : State) : Answer :=
  unlessBusy s <| unlessDone s <| requireRoom s <|
    .next (s.withEngine (pushCommand s.config.lenMode nb s.engine))

/-- FINAL (R156). -/
def execFinal (s : State) : Answer :=
  unlessBusy s <| unlessDone s <| requireRoom s <|
    .next (s.withEngine (finalCommand s.config.lenMode s.engine))

end Sys2Proof.Machine
end

