-- ==== Sys2Proof/Machine/Bus.lean ====
section
/-! DEFINITION. The host's transactions on the register window (R51, R52, R150, R151), the acceptance of command words
(R152), and one move of the host agent (R77). -/

namespace Sys2Proof.Machine

/-- The offset of a register in the window (R58). -/
def regOffset : Reg → Nat
  | .cmd => 0x00
  | .status => 0x04
  | .data => 0x08
  | .cfg => 0x0C
  | .digest0 => 0x10
  | .digest1 => 0x14
  | .digest2 => 0x18
  | .digest3 => 0x1C

/-- The register at an offset of the window, none where the offset is not a multiple of 4 (R52, R58). -/
def regAt : Nat → Option Reg
  | 0x00 => some .cmd
  | 0x04 => some .status
  | 0x08 => some .data
  | 0x0C => some .cfg
  | 0x10 => some .digest0
  | 0x14 => some .digest1
  | 0x18 => some .digest2
  | 0x1C => some .digest3
  | _ => none

/-- A word of the digest window: its accumulator where DONE = 1, else zero (R33). -/
def digestWord (e : Engine) (acc : Word) : Word := if e.isDone then acc else 0x00000000

/-- RegRead (R150). -/
def regRead (c : Config) (e : Engine) : Reg → Word
  | .cmd => 0x00000000
  | .status => e.status
  | .data => e.data
  | .cfg => cfgWord c.lenMode
  | .digest0 => digestWord e e.acc.a
  | .digest1 => digestWord e e.acc.b
  | .digest2 => digestWord e e.acc.c
  | .digest3 => digestWord e e.acc.d

/-- Byte `off` of the window: bits 8j+7..8j of the register at offset 4k, for off = 4k + j (R53). No access reads
it alone; it states the window's byte order. -/
def windowByte (c : Config) (e : Engine) (off : Nat) : Option Byte :=
  (regAt (4 * (off / 4))).map fun r => byteOf (regRead c e r) (off % 4)

/-- COMMAND(v) (R152): the word is decoded and executed, or it is ILLEGAL. BUSY comes first either way. -/
def command (v : Word) (s : State) : Answer :=
  match decode v with
  | .command i => exec i s
  | .illegal _ => rejectIllegal s

/-- RegWrite (R151): CMD takes a command, DATA takes the word whatever BUSY and MODE are, the rest ignore it. -/
def regWrite (r : Reg) (v : Word) (s : State) : Answer :=
  match r with
  | .cmd => command v s
  | .data => .next (s.withEngine (s.engine.withData v))
  | .status => .next s
  | .cfg => .next s
  | .digest0 => .next s
  | .digest1 => .next s
  | .digest2 => .next s
  | .digest3 => .next s

/-- The bus in front of the window (R52): an access wider than 4 bytes or outside the window has no move; a narrow
or misaligned one gets BUS_ERR; any other reaches its register. -/
def route (c : Config) (a : Access) (k : Reg → Answer) : Answer :=
  if a.width = .wide then .refused .wideAccess
  else if a.addr < c.engineBase ∨ c.engineBase + 32 ≤ a.addr then .refused .outsideWindow
  else if a.width ≠ .word then .fault (.busErr (a.addr - c.engineBase))
  else
    match regAt (a.addr - c.engineBase) with
    | none => .fault (.busErr (a.addr - c.engineBase))
    | some r => k r

/-- A host turn: one transaction of its next statement (R51, R77). A poll that does not see its value stays. A host
with no statement left lets the turn pass (log entry 7). -/
def hostTurn (s : State) : Answer :=
  match s.prog with
  | [] => .next s
  | .read a t :: p =>
    route s.config a fun r => .next ((s.withProg p).withTemps (loadTemp s.temps t (regRead s.config s.engine r)))
  | .write a v :: p => route s.config a fun r => regWrite r v (s.withProg p)
  | .poll a mask val :: p =>
    route s.config a fun r =>
      if regRead s.config s.engine r &&& mask = val then .next (s.withProg p) else .next s

end Sys2Proof.Machine
end

