-- ==== Sys2Proof/Machine/EngineSteps.lean ====
section
/-! DEFINITION. The engine's own steps, ROUND and ACCUM (R159 to R161). -/

namespace Sys2Proof.Machine

/-- ROUND, enabled iff STAGE = ROUNDS (R159). -/
def engineRound (e : Engine) : Engine :=
  let wv := round e.rnd.val e.wv (messageWord (Memory.read e.buf))
  if e.rnd.val = 63 then { e with wv := wv, stage := .accum }
  else { e with wv := wv, rnd := e.rnd + 1 }

/-- The part of ACCUM that every case shares: the block is folded into the accumulators, CNT <- 0, STAGE <- IDLE (R160).
CNT is 0 in every case, as R160 writes, also before a second padding block (log entry 12). -/
def foldBlock (e : Engine) : Engine := { e with acc := accumulate e.acc e.wv, cnt := 0, stage := .idle }

/-- ACCUM, enabled iff STAGE = ACCUM (R160). -/
def engineAccum (m : LenMode) (e : Engine) : Engine :=
  let e' := foldBlock e
  if e.mode = .finalizing then
    if e.fin2 then
      startBlock { e' with buf := Memory.writeBytes e'.buf 0 (secondBlock e.lenf), fin2 := false }
    else { e' with mode := .done }
  else if e.pend ≠ [] then absorbList m e.pend e'
  else e'

/-- The engine's next step: none while STAGE = IDLE, else exactly one (R161.1, R161.2). -/
def engineStep? (m : LenMode) (e : Engine) : Option Engine :=
  match e.stage with
  | .idle => none
  | .rounds => some (engineRound e)
  | .accum => some (engineAccum m e)

/-- The engine after n engine steps with no host transaction between them, fewer where it becomes idle (R161.4). -/
def engineRun (m : LenMode) : Nat → Engine → Engine
  | 0, e => e
  | n + 1, e =>
    match engineStep? m e with
    | none => e
    | some e' => engineRun m n e'

/-- An engine turn. Where the engine has no step the turn passes (log entry 7). -/
def engineTurn (s : State) : Answer :=
  match engineStep? s.config.lenMode s.engine with
  | none => .next s
  | some e' => .next (s.withEngine e')

end Sys2Proof.Machine
end

