-- ==== Sys2Proof/Machine/Sequencer.lean ====
section
/-! DEFINITION. The total order of events (R59): whose turn it is, and what each kind of event does. -/

namespace Sys2Proof.Machine

/-- The next event: the head of `turns`; once the list is used up, the engine while BUSY = 1, else the host. So an
enabled engine step is always taken after finitely many events (R161.3; log entry 6). -/
def nextTurn (s : State) : Turn :=
  match s.turns with
  | t :: _ => t
  | [] => if s.engine.busy then .engine else .host

/-- The reset event (R210): every element of the engine takes its value of R40, whatever the prior state. -/
def resetTurn (s : State) : Answer := .next (s.withEngine Engine.reset)

/-- One event of the given kind. -/
def takeTurn (t : Turn) (s : State) : Answer :=
  match t with
  | .host => hostTurn s
  | .engine => engineTurn s
  | .reset => resetTurn s

/-- The next event of the total order. -/
def advance (s : State) : Answer := takeTurn (nextTurn s) (s.withTurns s.turns.tail)

/-- The state whose next event is the host's 32-bit write of word v to CMD, everything else left in place. -/
def offerCommand (s : State) (v : Word) : State :=
  (s.withProg (.write { width := .word, addr := s.config.engineBase + regOffset .cmd } v :: s.prog)).withTurns
    (.host :: s.turns)

end Sys2Proof.Machine
end

