-- ==== Sys2Proof/Machine/Step.lean ====
section
/-! DEFINITION. One step of the machine: one event of the total order of R59. -/

namespace Sys2Proof.Machine

/-- One event: a host transaction, an engine step or a reset. -/
def step (s : State) : Host.Outcome State Fault Refusal := advance s

/-- The state whose next step runs the row's command word. The engine fetches no program (R62): a command runs when the host
writes its word to CMD, so the word is placed as the host's next transaction (log entry 10). -/
def State.withFetchWord (s : State) (nbits w : Nat) : State := offerCommand s (tableWord nbits w)

end Sys2Proof.Machine
end

