-- ==== Sys2Proof/Machine/HostProgram.lean ====
section
/-! DEFINITION. The host's assembly syntax (R77) and its pseudo-instructions (R78), down to bus transactions. -/

namespace Sys2Proof.Machine

/-- A 32-bit access to a register of the window (R77). -/
def regAccess (base : Nat) (r : Reg) : Access where
  width := .word
  addr := base + regOffset r

/-- A statement as its transaction (R77). -/
def assembleStmt (base : Nat) : Stmt → HostOp
  | .wr r v => .write (regAccess base r) v
  | .rd t r => .read (regAccess base r) t
  | .poll r mask val => .poll (regAccess base r) mask val

/-- A host program as its list of transactions (R77). -/
def assemble (base : Nat) (p : List Stmt) : List HostOp := p.map (assembleStmt base)

/-- `push n`: `wr CMD, 0x00000002 OR ((n-1) << 4)` (R78). -/
def stmtPush (n : Nat) : Stmt := .wr .cmd (0x00000002 ||| (BitVec.ofNat 32 (n - 1) <<< 4))

/-- `waitidle` (R78). -/
def stmtWaitIdle : Stmt := .poll .status 0x00000001 0x00000000

/-- `waitdone` (R78). -/
def stmtWaitDone : Stmt := .poll .status 0x00000003 0x00000002

/-- `pushn v, n` (R78). -/
def stmtsPushN (v : Word) (n : Nat) : List Stmt := [.wr .data v, stmtPush n, stmtWaitIdle]

/-- `readdigest` (R78). -/
def stmtsReadDigest : List Stmt :=
  [.rd 0 .digest0, .rd 1 .digest1, .rd 2 .digest2, .rd 3 .digest3]

/-- One `pushn` per group of 4 bytes, each packed little-endian, the last group of 1 to 3 bytes (R78).
DESIGN CHOICE (log entry 20, unsafe): the bits of v above a last group of 1 to 3 bytes are zero. R78 does not say what they
are, and R163 calls them arbitrary. -/
def stmtsPushBytes : List Byte → List Stmt
  | [] => []
  | [b0] => stmtsPushN (le32 b0 0 0 0) 1
  | [b0, b1] => stmtsPushN (le32 b0 b1 0 0) 2
  | [b0, b1, b2] => stmtsPushN (le32 b0 b1 b2 0) 3
  | b0 :: b1 :: b2 :: b3 :: bs => stmtsPushN (le32 b0 b1 b2 b3) 4 ++ stmtsPushBytes bs

/-- The expansions of R78. -/
def expandPseudo : Pseudo → List Stmt
  | .init => [.wr .cmd 0x00000001]
  | .push n => [stmtPush n]
  | .final => [.wr .cmd 0x00000003]
  | .waitidle => [stmtWaitIdle]
  | .waitdone => [stmtWaitDone]
  | .pushn v n => stmtsPushN v n
  | .pushw v => stmtsPushN v 4
  | .pushb v => stmtsPushN v 1
  | .readdigest => stmtsReadDigest
  | .md5 bytes =>
    .wr .cmd 0x00000001 :: (stmtsPushBytes bytes ++
      [.wr .cmd 0x00000003, stmtWaitDone] ++ stmtsReadDigest)

end Sys2Proof.Machine
end

