-- ==== Sys2Proof/Safety.lean ====
section
/-! DEFINITION. The terms claims are stated in: the invariants of R39, what a run has absorbed and what the engine
then holds (R39.6, R99, R141, R163), which states no host can tell apart (R40, R145), when a run is final
and what may be observed of it (R164), and the host's side of R163. -/

namespace Sys2Proof.Machine

/-! ### The invariants of R39 -/

/-- What holds of the engine in every reachable state (R39, with the ranges R23 and R25 give CNT and PEND). -/
structure EngineInv (e : Engine) : Prop where
  /-- BUF is in canonical form, indexes 0..63 (R50). -/
  bufWf : Memory.wf e.buf = true
  /-- CNT is an integer 0..64 (R23). -/
  cntLe : e.cnt ≤ 64
  /-- PEND is 0 to 3 bytes (R25). -/
  pendLe : e.pend.length ≤ 3
  /-- R39.1. -/
  idle : e.stage = .idle → e.cnt ≤ 63 ∧ e.pend = [] ∧ e.fin2 = false
  /-- R39.2: FINALIZING implies BUSY = 1. -/
  finalizing : e.mode = .finalizing → e.stage ≠ .idle
  /-- R39.3. -/
  done : e.mode = .done → e.stage = .idle
  /-- R39.5. -/
  pend : e.pend ≠ [] → e.stage ≠ .idle ∧ e.mode = .absorb
  /-- FIN2 stands only between FINAL and the second padding block (R28). -/
  fin2 : e.fin2 = true → e.mode = .finalizing
  /-- A block that compresses before FINAL is a full one (R153). -/
  full : e.stage ≠ .idle → e.mode = .absorb → e.cnt = 64
  /-- R39.6, as far as the state shows it, while message bytes are accepted: BITLEN counts whole bytes and CNT
  is their number modulo 64, or 64 where a full block waits. -/
  count : e.mode = .absorb → e.bitlen.toNat % 8 = 0 ∧ e.cnt % 64 = e.bitlen.toNat / 8 % 64
  /-- R39.6 from FINAL to DONE: BITLEN still counts whole bytes; with n their number modulo 64, CNT is n while the block with
  the marker compresses (FIN2 = 1, or n ≤ 55 and there is no second one), and exactly 0 while the second padding block
  does, as R160 writes it (log entry 12). -/
  countFinal : e.mode = .finalizing → e.bitlen.toNat % 8 = 0 ∧
    (e.fin2 = true → 56 ≤ e.bitlen.toNat / 8 % 64) ∧
    (e.fin2 = true ∨ e.bitlen.toNat / 8 % 64 ≤ 55 → e.cnt = e.bitlen.toNat / 8 % 64) ∧
    (e.fin2 = false → 56 ≤ e.bitlen.toNat / 8 % 64 → e.cnt = 0)

/-- Host temporaries in canonical form: numbers strictly rising from `low`. -/
def tempsWfFrom : Nat → List (Nat × Word) → Bool
  | _, [] => true
  | low, (k, _) :: ts => low ≤ k && tempsWfFrom (k + 1) ts

/-- The invariant of the whole machine. -/
structure Inv (s : State) : Prop where
  engine : EngineInv s.engine
  /-- `ENGINE_BASE` is a multiple of 32 (R58). -/
  config : s.config.wellFormed = true
  temps : tempsWfFrom 0 s.temps = true

/-! ### Which event comes next, and what it is -/

/-- The command word the next event writes to CMD, if it is one. -/
def commandOffered (s : State) : Option Word :=
  match nextTurn s, s.prog with
  | .host, .write a v :: _ =>
    if a.width = .word ∧ a.addr = s.config.engineBase + regOffset .cmd then some v else none
  | _, _ => none

/-- The command the next event executes: one that decodes, that BUSY = 0 lets through, and that is not PUSH or FINAL
after DONE (R152, R194). -/
def commandAccepted (s : State) : Option Instr :=
  match commandOffered s with
  | none => none
  | some v =>
    if s.engine.busy then none
    else
      match decode v with
      | .illegal _ => none
      | .command i => if s.engine.isDone ∧ i ≠ .init then none else some i

/-- The next event is the host's transaction `op`, with the statements `p` after it. -/
def HostMoves (s : State) (op : HostOp) (p : List HostOp) : Prop := nextTurn s = .host ∧ s.prog = op :: p

/-- The access a host statement makes (R51). -/
def accessOf : HostOp → Access
  | .read a _ => a
  | .write a _ => a
  | .poll a _ _ => a

/-- The host keeps its duty for one statement: a 32-bit aligned access to a register of the window (R162). -/
def WellAddressed (c : Config) (op : HostOp) : Prop := ∃ r, accessOf op = regAccess c.engineBase r

/-- Everything outside the engine is the same in the two states. -/
structure SameHost (s t : State) : Prop where
  config : t.config = s.config
  prog : t.prog = s.prog
  temps : t.temps = s.temps
  turns : t.turns = s.turns

/-! ### The message of the computation in progress -/

/-- The bytes PUSH has taken since the last INIT or reset, after the next event, where `m` is that list before it. -/
def messageAfter (s : State) (m : List Byte) : List Byte :=
  if nextTurn s = .reset then []
  else
    match commandAccepted s with
    | some .init => []
    | some (.push nb) => m ++ dataBytes s.engine.data (pushCount nb)
    | some .final => m
    | none => m

/-- How many of the bytes of `m` have been absorbed: all but those that wait in PEND (R25). -/
def absorbedCount (m : List Byte) (e : Engine) : Nat := m.length - e.pend.length

/-- The working variables are what the rounds performed so far give (R118, R119). -/
def WorkingOk (e : Engine) : Prop :=
  match e.stage with
  | .idle => True
  | .rounds => e.wv = roundsUpTo e.acc (Memory.read e.buf) e.rnd.val
  | .accum => e.wv = rounds64 e.acc (Memory.read e.buf)

/-- BUF holds block t of a byte sequence whose blocks 0..t-1 are folded into the accumulators (R96, R141). -/
def AtBlock (bytes : Nat → Byte) (t : Nat) (e : Engine) : Prop :=
  e.acc = chain iv bytes t ∧ ∀ k, k < 64 → Memory.read e.buf k = bytes (64 * t + k)

/-- What the engine holds of the message m, by MODE and STAGE. -/
def BlockOk (lm : LenMode) (m : List Byte) (e : Engine) : Prop :=
  match e.mode, e.stage with
  | .absorb, .idle =>
    e.cnt = absorbedCount m e % 64 ∧ e.acc = chain iv (byteAt m) (absorbedCount m e / 64) ∧
      ∀ k, k < e.cnt → Memory.read e.buf k = byteAt m (64 * (absorbedCount m e / 64) + k)
  | .absorb, _ =>
    64 ≤ absorbedCount m e ∧ absorbedCount m e % 64 = 0 ∧ AtBlock (byteAt m) (absorbedCount m e / 64 - 1) e
  | .finalizing, _ =>
    e.lenf = lenVal lm m.length ∧ (e.fin2 = true → 56 ≤ m.length % 64) ∧
      AtBlock (byteAt (pad lm m)) (blockCount m.length - if e.fin2 then 2 else 1) e
  | .done, _ => e.acc = digestState lm m

/-- The engine e is in a computation whose PUSH commands have taken exactly the bytes m (R99, R141, R163): BITLEN and LEN_OVF
count the absorbed ones, PEND holds the rest, and the accumulators, BUF and the working variables are at
the block of m, or of PAD(m), that is due. -/
structure Tracks (lm : LenMode) (m : List Byte) (e : Engine) : Prop where
  pendLe : e.pend.length ≤ m.length
  pend : e.pend = m.drop (absorbedCount m e)
  bitlen : e.bitlen = BitVec.ofNat 64 (8 * absorbedCount m e)
  lenOvf : e.lenOvf = lengthOverflow lm (absorbedCount m e)
  block : BlockOk lm m e
  working : WorkingOk e

/-! ### What no host can tell apart -/

/-- Two engines that differ only in what R40 calls unobservable: the bytes of BUF at CNT and above while idle, and the working
variables and RND while idle. -/
structure Engine.Agree (e f : Engine) : Prop where
  acc : e.acc = f.acc
  cnt : e.cnt = f.cnt
  bitlen : e.bitlen = f.bitlen
  pend : e.pend = f.pend
  stage : e.stage = f.stage
  mode : e.mode = f.mode
  fin2 : e.fin2 = f.fin2
  lenf : e.lenf = f.lenf
  errCmd : e.errCmd = f.errCmd
  errBusy : e.errBusy = f.errBusy
  lenOvf : e.lenOvf = f.lenOvf
  data : e.data = f.data
  /-- The bytes of the current block that are in place. -/
  buf : ∀ k, k < 64 → (e.stage = .idle → k < e.cnt) → Memory.read e.buf k = Memory.read f.buf k
  wv : e.stage ≠ .idle → e.wv = f.wv
  rnd : e.stage ≠ .idle → e.rnd = f.rnd

/-- Two states whose engines agree and that are otherwise equal. -/
structure Agree (s t : State) : Prop where
  engine : Engine.Agree s.engine t.engine
  config : s.config = t.config
  prog : s.prog = t.prog
  temps : s.temps = t.temps
  turns : s.turns = t.turns

/-- Two answers that no host can tell apart: both stop for the same reason, or both go on to states that agree. -/
def AnswersAgree : Answer → Answer → Prop
  | .next s, .next t => Agree s t
  | .fault a, .fault b => a = b
  | .refused a, .refused b => a = b
  | _, _ => False

/-! ### The end of a run -/

/-- R164: the host has performed its last statement and STAGE = IDLE. A run that stopped with a fault never is. -/
def Final (s : State) : Prop := s.prog = [] ∧ s.engine.stage = .idle

/-- The observation of a final state: the value of every register as RegRead returns it (R164). -/
def observe (s : State) : List Word :=
  [.cmd, .status, .data, .cfg, .digest0, .digest1, .digest2, .digest3].map (regRead s.config s.engine)

/-! ### The host's side of R163 -/

/-- A fresh computation: what reset and an accepted INIT leave, as far as it can matter (R211). -/
structure Fresh (e : Engine) : Prop where
  acc : e.acc = iv
  cnt : e.cnt = 0
  bitlen : e.bitlen = 0
  pend : e.pend = []
  stage : e.stage = .idle
  mode : e.mode = .absorb
  fin2 : e.fin2 = false
  errCmd : e.errCmd = false
  errBusy : e.errBusy = false
  lenOvf : e.lenOvf = false

/-- R163, step 1 for one group: write DATA, observe BUSY = 0, write PUSH. The group is a DATA word, arbitrary above its
bytes, and the field NB. -/
def groupStmts (g : Word × BitVec 2) : List Stmt :=
  [.wr .data g.1, stmtWaitIdle, .wr .cmd (encode (.push g.2))]

/-- R163, steps 1 to 3: every group in order, then observe BUSY = 0 and write FINAL, then wait until DONE = 1. -/
def messageStmts (gs : List (Word × BitVec 2)) : List Stmt :=
  gs.flatMap groupStmts ++ [stmtWaitIdle, .wr .cmd (encode .final), stmtWaitDone]

/-- The message the groups spell: the bytes of each, in order (R163). -/
def messageOf (gs : List (Word × BitVec 2)) : List Byte :=
  gs.flatMap fun g => dataBytes g.1 (pushCount g.2)

end Sys2Proof.Machine
end

