-- ==== Sys2Proof/Certificates/Slice0/Obligations.lean ====
section
/-! DEFINITION. The statements for the provers: what the rules of spec/ say the engine and its host interface do.
Each docstring names the rule; OBLIGATIONS.json holds its title, its basis and what it cites. -/

open Sys2Proof Sys2Proof.Machine

/-! ### Reset -/

/-- R40: the values the spec states for reset, CFG among them for either LEN_MODE. It leaves a, b, c, d and BUF unspecified, so
nothing is said of them. -/
def Obligations.ResetHoldsStatedValues : Prop :=
  let e := State.reset.engine
  e.acc = ⟨0x67452301, 0xefcdab89, 0x98badcfe, 0x10325476⟩ ∧
  e.cnt = 0 ∧ e.bitlen = 0 ∧ e.pend = [] ∧ e.rnd = 0 ∧
  e.stage = .idle ∧ e.busy = false ∧ e.mode = .absorb ∧ e.isDone = false ∧
  e.fin2 = false ∧ e.lenf = 0 ∧
  e.errCmd = false ∧ e.errBusy = false ∧ e.lenOvf = false ∧ e.data = 0x00000000 ∧
  State.reset.config.lenMode = .trunc32 ∧
  ∀ base, regRead ⟨.trunc32, base⟩ e .cfg = 0x00000000 ∧ regRead ⟨.full64, base⟩ e .cfg = 0x00000001

/-- R210: the reset event is possible in every state, a compression in progress is abandoned, and every element takes
its value of R40, whatever the prior state. That the host keeps its statements and temporaries is the model's choice (log entry 14). -/
def Obligations.ResetEventOverridesEverything : Prop :=
  ∀ s : State, nextTurn s = .reset →
    ∃ t, step s = .next t ∧ Fresh t.engine ∧ t.engine.rnd = 0 ∧ t.engine.lenf = 0 ∧
      t.engine.data = 0 ∧ t.engine.status = 0 ∧
      t.config = s.config ∧ t.prog = s.prog ∧ t.temps = s.temps ∧ t.turns = s.turns.tail

/-- R211: apart from DATA and the unobservable elements (BUF, a, b, c, d, RND), what the reset event leaves is what an accepted
INIT leaves. -/
def Obligations.ResetEqualsAcceptedInit : Prop :=
  ∀ s r i : State, nextTurn s = .reset → step s = .next r →
    s.engine.stage = .idle → exec .init s = .next i →
    i.engine = { r.engine with
      data := s.engine.data, buf := s.engine.buf, wv := s.engine.wv, rnd := s.engine.rnd }

/-! ### Command words -/

/-- Decoding and encoding agree in both directions, for every command at every value of NB: a word decodes to a command exactly
where it is that command's encoding (R71 to R74). -/
def Obligations.DecodeExactlyInvertsEncode : Prop :=
  ∀ (v : Word) (i : Instr), decode v = .command i ↔ v = encode i

/-- R74: exactly these six words decode to a command, and to these commands; every other word is ILLEGAL. -/
def Obligations.ExactlySixWordsDecode : Prop :=
  ∀ v : Word,
    (∀ i, decode v = .command i ↔ (v, i) ∈ [((0x00000001 : Word), Instr.init),
      (0x00000002, .push 0), (0x00000012, .push 1), (0x00000022, .push 2), (0x00000032, .push 3),
      (0x00000003, .final)]) ∧
    ((∃ why, decode v = .illegal why) ↔
      v ∉ [0x00000001, 0x00000002, 0x00000012, 0x00000022, 0x00000032, 0x00000003])

/-- R79: a word selects a row of the opcode table iff (w AND mask) = match, and a word that matches no row is ILLEGAL. -/
def Obligations.OpcodeTableRowsSelectCommands : Prop :=
  ∀ w : Word,
    (w &&& 0xFFFFFFFF = 0x00000001 ↔ decode w = .command .init) ∧
    (w &&& 0xFFFFFFCF = 0x00000002 ↔ ∃ nb, decode w = .command (.push nb)) ∧
    (w &&& 0xFFFFFFFF = 0x00000003 ↔ decode w = .command .final) ∧
    ((w &&& 0xFFFFFFFF ≠ 0x00000001 ∧ w &&& 0xFFFFFFCF ≠ 0x00000002 ∧ w &&& 0xFFFFFFFF ≠ 0x00000003) ↔
      ∃ why, decode w = .illegal why)

/-- Words written out from the format of R71 (26 bits RSV, 2 bits NB, 4 bits OPC), with what R72 says they are. -/
def Obligations.WrittenOutWordsDecode : Prop :=
  decode 0b00000000000000000000000000_00_0001 = .command .init ∧
  decode 0b00000000000000000000000000_10_0010 = .command (.push 2) ∧
  decode 0b00000000000000000000000000_00_0011 = .command .final ∧
  decode 0b00000000000000000000000000_01_0001 = .illegal .nbNotZero ∧
  decode 0b00000000000000000000000001_00_0010 = .illegal .reservedBits ∧
  decode 0b00000000000000000000000000_00_0000 = .illegal .opcode

/-- A step runs the decoded command: when the next event writes the word v to CMD and v decodes to i, the step is exec of i at the state
in which that statement and that turn are used up (R70, R152). -/
def Obligations.StepExecutesOfferedCommand : Prop :=
  ∀ (s : State) (v : Word) (i : Instr), commandOffered s = some v → decode v = .command i →
    step s = exec i { s with prog := s.prog.tail, turns := s.turns.tail }

/-- R152, check 1: while BUSY = 1 every word written to CMD, legal or not, is dropped: ERR_BUSY is set and nothing else changes. -/
def Obligations.BusyEngineDropsEveryWord : Prop :=
  ∀ (s : State) (v : Word), commandOffered s = some v → s.engine.stage ≠ .idle →
    ∃ t, step s = .next t ∧ t.engine = { s.engine with errBusy := true } ∧
      t.config = s.config ∧ t.prog = s.prog.tail ∧ t.temps = s.temps ∧ t.turns = s.turns.tail

/-- R75: an ILLEGAL word written while BUSY = 0 sets ERR_CMD and has no other effect. -/
def Obligations.IllegalWordOnlySetsErrCmd : Prop :=
  ∀ (s : State) (v : Word), commandOffered s = some v → s.engine.stage = .idle →
    (∀ i, v ≠ encode i) →
    ∃ t, step s = .next t ∧ t.engine = { s.engine with errCmd := true } ∧
      t.config = s.config ∧ t.prog = s.prog.tail ∧ t.temps = s.temps ∧ t.turns = s.turns.tail

/-- R194: a single word sets at most one of ERR_BUSY and ERR_CMD. -/
def Obligations.OneEventSetsAtMostOneCommandError : Prop :=
  ∀ s t : State, step s = .next t →
    ¬ (s.engine.errBusy = false ∧ t.engine.errBusy = true ∧
       s.engine.errCmd = false ∧ t.engine.errCmd = true)

/-! ### The commands -/

/-- R154: INIT with BUSY = 0 starts a fresh computation, whatever MODE is; DATA, BUF, the working variables, RND and STAGE are unchanged.
With BUSY = 1 it is dropped. -/
def Obligations.InitStartsFreshComputation : Prop :=
  ∀ s : State,
    encode .init = 0x00000001 ∧
    (s.engine.stage = .idle →
      ∃ t, exec .init s = .next t ∧ SameHost s t ∧
        t.engine.acc = ⟨0x67452301, 0xefcdab89, 0x98badcfe, 0x10325476⟩ ∧
        t.engine.cnt = 0 ∧ t.engine.bitlen = 0 ∧ t.engine.pend = [] ∧
        t.engine.fin2 = false ∧ t.engine.lenf = 0 ∧ t.engine.mode = .absorb ∧
        t.engine.errCmd = false ∧ t.engine.errBusy = false ∧ t.engine.lenOvf = false ∧
        t.engine.stage = .idle ∧ t.engine.data = s.engine.data ∧ t.engine.wv = s.engine.wv ∧
        t.engine.rnd = s.engine.rnd ∧ ∀ a, Memory.read t.engine.buf a = Memory.read s.engine.buf a) ∧
    (s.engine.stage ≠ .idle →
      exec .init s = .next { s with engine := { s.engine with errBusy := true } })

/-- R155 with R153, R157 and R158: PUSH n while BUSY = 0 and MODE = ABSORB completes for every n and every CNT ≤ 63. Of its n bytes the first k, as many
as fit, go to BUF from CNT up, the rest to PEND; BITLEN counts the absorbed ones; LEN_OVF is set by the first that overflows the length
field; a full block starts compressing in the same event. Nothing else changes. With BUSY = 1, or after DONE, only the error flag is set. -/
def Obligations.PushAbsorbsBytes : Prop :=
  ∀ (s : State) (nb : BitVec 2),
    encode (.push nb) = 0x00000002 ||| (nb.setWidth 32 <<< 4) ∧
    (s.engine.stage = .idle → s.engine.mode = .absorb → s.engine.cnt ≤ 63 →
      let n := nb.toNat + 1
      let k := min n (64 - s.engine.cnt)
      ∃ t, exec (.push nb) s = .next t ∧ SameHost s t ∧
        (∀ j, j < k → Memory.read t.engine.buf (s.engine.cnt + j) = s.engine.data.extractLsb' (8 * j) 8) ∧
        (∀ a, a < s.engine.cnt ∨ s.engine.cnt + k ≤ a →
          Memory.read t.engine.buf a = Memory.read s.engine.buf a) ∧
        t.engine.cnt = s.engine.cnt + k ∧
        t.engine.pend.length = n - k ∧
        (∀ j, j < n - k → t.engine.pend[j]? = some (s.engine.data.extractLsb' (8 * (k + j)) 8)) ∧
        t.engine.bitlen = s.engine.bitlen + BitVec.ofNat 64 (8 * k) ∧
        (t.engine.lenOvf = true ↔ s.engine.lenOvf = true ∨
          ∃ j, 1 ≤ j ∧ j ≤ k ∧ (2 ^ 64 ≤ s.engine.bitlen.toNat + 8 * j ∨
            (s.config.lenMode = .trunc32 ∧ 2 ^ 32 ≤ (s.engine.bitlen.toNat + 8 * j) % 2 ^ 64))) ∧
        (s.engine.cnt + n ≤ 63 → t.engine.stage = .idle ∧ t.engine.wv = s.engine.wv ∧ t.engine.rnd = s.engine.rnd) ∧
        (64 ≤ s.engine.cnt + n → t.engine.stage = .rounds ∧ t.engine.wv = s.engine.acc ∧ t.engine.rnd = 0) ∧
        t.engine.acc = s.engine.acc ∧ t.engine.mode = s.engine.mode ∧ t.engine.fin2 = s.engine.fin2 ∧
        t.engine.lenf = s.engine.lenf ∧ t.engine.errCmd = s.engine.errCmd ∧
        t.engine.errBusy = s.engine.errBusy ∧ t.engine.data = s.engine.data) ∧
    (s.engine.stage ≠ .idle →
      exec (.push nb) s = .next { s with engine := { s.engine with errBusy := true } }) ∧
    (s.engine.stage = .idle → s.engine.mode = .done →
      exec (.push nb) s = .next { s with engine := { s.engine with errCmd := true } })

/-- R156 with R93, R94 and R157: FINAL while BUSY = 0 and MODE = ABSORB completes for every CNT ≤ 63. It latches the length field, writes the marker and the zeros, and the
length field where it fits (CNT ≤ 55), sets FIN2 where it does not, and starts the block. Nothing else changes. With BUSY = 1, or after DONE, only the error flag is set. -/
def Obligations.FinalPadsAndStartsBlock : Prop :=
  ∀ s : State,
    encode .final = 0x00000003 ∧
    (s.engine.stage = .idle → s.engine.mode = .absorb → s.engine.cnt ≤ 63 →
      let c := s.engine.cnt
      ∃ t, exec .final s = .next t ∧ SameHost s t ∧
        (s.config.lenMode = .trunc32 → t.engine.lenf.toNat = s.engine.bitlen.toNat % 2 ^ 32) ∧
        (s.config.lenMode = .full64 → t.engine.lenf = s.engine.bitlen) ∧
        (∀ a, a < c ∨ 64 ≤ a → Memory.read t.engine.buf a = Memory.read s.engine.buf a) ∧
        Memory.read t.engine.buf c = 0x80 ∧
        (c ≤ 55 → (∀ a, c < a → a < 56 → Memory.read t.engine.buf a = 0x00) ∧
          (∀ j, j < 8 → Memory.read t.engine.buf (56 + j) = t.engine.lenf.extractLsb' (8 * j) 8) ∧
          t.engine.fin2 = false) ∧
        (56 ≤ c → (∀ a, c < a → a < 64 → Memory.read t.engine.buf a = 0x00) ∧ t.engine.fin2 = true) ∧
        t.engine.mode = .finalizing ∧
        t.engine.stage = .rounds ∧ t.engine.wv = s.engine.acc ∧ t.engine.rnd = 0 ∧
        t.engine.acc = s.engine.acc ∧ t.engine.cnt = c ∧ t.engine.bitlen = s.engine.bitlen ∧
        t.engine.pend = s.engine.pend ∧ t.engine.errCmd = s.engine.errCmd ∧
        t.engine.errBusy = s.engine.errBusy ∧ t.engine.lenOvf = s.engine.lenOvf ∧
        t.engine.data = s.engine.data) ∧
    (s.engine.stage ≠ .idle →
      exec .final s = .next { s with engine := { s.engine with errBusy := true } }) ∧
    (s.engine.stage = .idle → s.engine.mode = .done →
      exec .final s = .next { s with engine := { s.engine with errCmd := true } })

/-- In every state that meets the invariant every command answers a next state: no run ever stops at a command (R190). -/
def Obligations.EveryCommandAnswersNext : Prop :=
  ∀ (i : Instr) (s : State), Inv s → ∃ t, exec i s = .next t

/-- Where a command stops at all (log entry 9, the model's own choice for states no run reaches): PUSH or FINAL, idle, not DONE, with CNT beyond BUF. -/
def Obligations.CommandFaultsExactlyBeyondBuf : Prop :=
  ∀ (i : Instr) (s : State),
    (∀ r, exec i s ≠ .refused r) ∧
    ((∃ f, exec i s = .fault f) ↔
      i ≠ .init ∧ s.engine.stage = .idle ∧ s.engine.mode ≠ .done ∧ 64 ≤ s.engine.cnt) ∧
    (∀ f, exec i s = .fault f → f = .bufRange)

/-! ### The register window -/

/-- R150 with R57: a 32-bit aligned read of any register answers the value the rule gives, loads it into its temporary, and changes nothing else. -/
def Obligations.RegReadReturnsValue : Prop :=
  ∀ (s : State) (r : Reg) (n : Nat) (p : List HostOp),
    HostMoves s (.read (regAccess s.config.engineBase r) n) p →
    ∃ t x, step s = .next t ∧ tempAt t.temps n = some x ∧
      (∀ m, m ≠ n → tempAt t.temps m = tempAt s.temps m) ∧
      t.engine = s.engine ∧ t.config = s.config ∧ t.prog = p ∧ t.turns = s.turns.tail ∧
      (r = .cmd → x = 0x00000000) ∧
      (r = .status → x.toNat = 16 * s.engine.lenOvf.toNat + 8 * s.engine.errBusy.toNat +
        4 * s.engine.errCmd.toNat + 2 * (decide (s.engine.mode = .done)).toNat +
        (decide (s.engine.stage ≠ .idle)).toNat) ∧
      (r = .data → x = s.engine.data) ∧
      (r = .cfg → x = if s.config.lenMode = .full64 then 0x00000001 else 0x00000000) ∧
      (r = .digest0 → x = if s.engine.mode = .done then s.engine.acc.a else 0x00000000) ∧
      (r = .digest1 → x = if s.engine.mode = .done then s.engine.acc.b else 0x00000000) ∧
      (r = .digest2 → x = if s.engine.mode = .done then s.engine.acc.c else 0x00000000) ∧
      (r = .digest3 → x = if s.engine.mode = .done then s.engine.acc.d else 0x00000000)

/-- R29: the bits of STATUS, one by one; bits 31:5 read as 0. -/
def Obligations.StatusBitsAreTheFlags : Prop :=
  ∀ (e : Engine) (k : Nat), e.status.getLsbD k =
    if k = 0 then decide (e.stage ≠ .idle)
    else if k = 1 then decide (e.mode = .done)
    else if k = 2 then e.errCmd
    else if k = 3 then e.errBusy
    else if k = 4 then e.lenOvf
    else false

/-- R151 with R57: a write to DATA sets DATA and nothing else, whatever BUSY and MODE are; a write to STATUS, CFG or DIGEST0..3 has no effect. -/
def Obligations.RegWriteOutsideCmd : Prop :=
  ∀ (s : State) (r : Reg) (v : Word) (p : List HostOp), r ≠ .cmd →
    HostMoves s (.write (regAccess s.config.engineBase r) v) p →
    ∃ t, step s = .next t ∧
      t.engine = (if r = .data then { s.engine with data := v } else s.engine) ∧
      t.config = s.config ∧ t.prog = p ∧ t.temps = s.temps ∧ t.turns = s.turns.tail

/-- R52 with U9 and U10: what the bus does with an access, by width, window and alignment. A narrow (1 or 2 bytes, and 3: log entry 21) or misaligned access of the window faults with its offset;
wider and outside ones have no move, and that is decided first (the model's choice, log entry 8); an aligned 32-bit one completes in every
state that meets the invariant. -/
def Obligations.BusAnswersByWidthAndAlignment : Prop :=
  ∀ (s : State) (op : HostOp) (p : List HostOp), HostMoves s op p →
    let w := (accessOf op).width
    let a := (accessOf op).addr
    let base := s.config.engineBase
    let inside := base ≤ a ∧ a < base + 32
    (w = .wide → step s = .refused .wideAccess) ∧
    (w ≠ .wide → ¬ inside → step s = .refused .outsideWindow) ∧
    (w ≠ .wide → inside → (w ≠ .word ∨ (a - base) % 4 ≠ 0) → step s = .fault (.busErr (a - base))) ∧
    (w = .word → inside → (a - base) % 4 = 0 → Inv s → ∃ t, step s = .next t)

/-- R33 with R53 and R143: the 16 bytes of the window at offsets 0x10..0x1F in address order are the digest bytes 0..15 once DONE = 1, and zero before. -/
def Obligations.DigestWindowHoldsSerialisedState : Prop :=
  ∀ (c : Config) (e : Engine) (k : Nat), k < 16 →
    windowByte c e (0x10 + k) =
      if e.mode = .done then (serialize e.acc)[k]? else some 0x00

/-- R77: a poll whose read gives the awaited value is done; otherwise it stays the next statement. Either way nothing else changes.
That one host turn makes one read of the loop is log entry 18. -/
def Obligations.PollRepeatsUntilValue : Prop :=
  ∀ (s : State) (r : Reg) (mask val : Word) (p : List HostOp),
    HostMoves s (.poll (regAccess s.config.engineBase r) mask val) p →
    step s = .next { s with
      prog := if regRead s.config s.engine r &&& mask = val then p else s.prog
      turns := s.turns.tail }

/-- R78 against R72: the pseudo-instruction `push n` writes to CMD the word that encodes PUSH n, for every n it admits. -/
def Obligations.PseudoPushWritesItsCommandWord : Prop :=
  ∀ n : Nat, (Pseudo.push n).wellFormed = true →
    ∃ nb : BitVec 2, pushCount nb = n ∧ expandPseudo (.push n) = [.wr .cmd (encode (.push nb))]

/-! ### The pure functions -/

/-- R111: bit k of rotl32(x, n) is bit (k - n) mod 32 of x, for 1 ≤ n ≤ 31. -/
def Obligations.RotateMovesEachBit : Prop :=
  ∀ (x : Word) (n k : Nat), 1 ≤ n → n ≤ 31 → k < 32 →
    (rotl32 x n).getLsbD k = x.getLsbD ((k + 32 - n) % 32)

/-- R113 to R116, bit by bit. -/
def Obligations.MixingFunctionsBitwise : Prop :=
  ∀ (b c d : Word) (k : Nat), k < 32 →
    (mixF b c d).getLsbD k = (if b.getLsbD k then c.getLsbD k else d.getLsbD k) ∧
    (mixG b c d).getLsbD k = (if d.getLsbD k then b.getLsbD k else c.getLsbD k) ∧
    (mixH b c d).getLsbD k = (b.getLsbD k ^^ c.getLsbD k ^^ d.getLsbD k) ∧
    (mixI b c d).getLsbD k = (c.getLsbD k ^^ (b.getLsbD k || !d.getLsbD k))

/-- R110: w[j] = blk[4j] + 2^8·blk[4j+1] + 2^16·blk[4j+2] + 2^24·blk[4j+3]. -/
def Obligations.MessageWordIsLittleEndian : Prop :=
  ∀ (blk : Nat → Byte) (j : Nat),
    (messageWord blk j).toNat = (blk (4 * j)).toNat + 2 ^ 8 * (blk (4 * j + 1)).toNat +
      2 ^ 16 * (blk (4 * j + 2)).toNat + 2 ^ 24 * (blk (4 * j + 3)).toNat

/-- R91: P(L) is the smallest multiple of 64 that is ≥ L + 9. -/
def Obligations.PaddedLengthIsLeast : Prop :=
  ∀ L : Nat, 64 ∣ paddedLength L ∧ L + 9 ≤ paddedLength L ∧
    ∀ P, 64 ∣ P → L + 9 ≤ P → paddedLength L ≤ P

/-- R92: the content of PAD(m), byte by byte, with LENVAL in little-endian order in the last 8 bytes, and the count of zero bytes. -/
def Obligations.PaddedContentBytewise : Prop :=
  ∀ (lm : LenMode) (m : List Byte),
    let L := m.length
    let P := paddedLength L
    (pad lm m).length = P ∧
    (∀ k, k < L → (pad lm m)[k]? = m[k]?) ∧
    (pad lm m)[L]? = some 0x80 ∧
    (∀ k, L < k → k < P - 8 → (pad lm m)[k]? = some 0x00) ∧
    (∀ j, j < 8 → (pad lm m)[P - 8 + j]? = some ((lenVal lm L).extractLsb' (8 * j) 8)) ∧
    P - L - 9 ≤ 63 ∧ (L + 1 + (P - L - 9)) % 64 = 56

/-- R93: the length-field value in either mode, and the two modes agree whenever 8L < 2^32. -/
def Obligations.LengthFieldByMode : Prop :=
  ∀ L : Nat,
    (lenVal .trunc32 L).toNat = 8 * L % 2 ^ 32 ∧
    (lenVal .full64 L).toNat = 8 * L % 2 ^ 64 ∧
    (8 * L < 2 ^ 32 → lenVal .trunc32 L = lenVal .full64 L)

/-- R95: beyond the blocks filled entirely by message bytes padding adds exactly 1 block when L mod 64 ≤ 55 and exactly 2 when L mod 64 ≥ 56. -/
def Obligations.PaddingAddsOneOrTwoBlocks : Prop :=
  ∀ (lm : LenMode) (m : List Byte),
    (pad lm m).length = 64 * (m.length / 64 + if m.length % 64 ≤ 55 then 1 else 2)

/-! ### Engine steps -/

/-- R159 with R118: an engine step in STAGE = ROUNDS performs round RND on the words of BUF and moves on to the next round, or to ACCUM after round 63.
Only a, b, c, d, RND and STAGE change. -/
def Obligations.RoundStepPerformsRound : Prop :=
  ∀ s : State, nextTurn s = .engine → s.engine.stage = .rounds →
    let i := s.engine.rnd.val
    let q := s.engine.wv
    let w := messageWord (Memory.read s.engine.buf)
    ∃ t, step s = .next t ∧
      t.engine.wv = ⟨q.d, q.b + rotl32 (q.a + fsel i q.b q.c q.d + kAt i + w (gsel i)) (rAt i), q.b, q.c⟩ ∧
      (i = 63 → t.engine.stage = .accum ∧ t.engine.rnd = s.engine.rnd) ∧
      (i < 63 → t.engine.stage = .rounds ∧ t.engine.rnd.val = i + 1) ∧
      t.engine = { s.engine with wv := t.engine.wv, rnd := t.engine.rnd, stage := t.engine.stage } ∧
      t.config = s.config ∧ t.prog = s.prog ∧ t.temps = s.temps ∧ t.turns = s.turns.tail

/-- R160 with R140: an engine step in STAGE = ACCUM adds the working variables into the accumulators, and then, by MODE, FIN2 and PEND, writes and starts the second
padding block, completes the digest, absorbs the waiting bytes, or becomes idle. -/
def Obligations.AccumStepFoldsBlock : Prop :=
  ∀ s : State, nextTurn s = .engine → s.engine.stage = .accum → s.engine.pend.length ≤ 3 →
    let e := s.engine
    ∃ t, step s = .next t ∧
      t.engine.acc = ⟨e.acc.a + e.wv.a, e.acc.b + e.wv.b, e.acc.c + e.wv.c, e.acc.d + e.wv.d⟩ ∧
      t.engine.lenf = e.lenf ∧ t.engine.errCmd = e.errCmd ∧ t.engine.errBusy = e.errBusy ∧ t.engine.data = e.data ∧
      t.config = s.config ∧ t.prog = s.prog ∧ t.temps = s.temps ∧ t.turns = s.turns.tail ∧
      (e.mode = .finalizing → e.fin2 = true →
        (∀ k, k < 56 → Memory.read t.engine.buf k = 0x00) ∧
        (∀ j, j < 8 → Memory.read t.engine.buf (56 + j) = e.lenf.extractLsb' (8 * j) 8) ∧
        (∀ a, 64 ≤ a → Memory.read t.engine.buf a = Memory.read e.buf a) ∧
        t.engine.fin2 = false ∧ t.engine.cnt = 0 ∧ t.engine.mode = .finalizing ∧
        t.engine.stage = .rounds ∧ t.engine.rnd = 0 ∧ t.engine.wv = t.engine.acc ∧
        t.engine.bitlen = e.bitlen ∧ t.engine.lenOvf = e.lenOvf ∧ t.engine.pend = e.pend) ∧
      (e.mode = .finalizing → e.fin2 = false →
        t.engine.mode = .done ∧ t.engine.stage = .idle ∧ t.engine.cnt = 0 ∧ t.engine.fin2 = false ∧
        t.engine.bitlen = e.bitlen ∧ t.engine.lenOvf = e.lenOvf ∧ t.engine.pend = e.pend ∧
        t.engine.wv = e.wv ∧ t.engine.rnd = e.rnd ∧ t.engine.buf = e.buf) ∧
      (e.mode ≠ .finalizing →
        (∀ k, k < e.pend.length → some (Memory.read t.engine.buf k) = e.pend[k]?) ∧
        (∀ a, e.pend.length ≤ a → Memory.read t.engine.buf a = Memory.read e.buf a) ∧
        t.engine.cnt = e.pend.length ∧ t.engine.pend = [] ∧ t.engine.stage = .idle ∧
        t.engine.mode = e.mode ∧ t.engine.fin2 = e.fin2 ∧
        t.engine.bitlen = e.bitlen + BitVec.ofNat 64 (8 * e.pend.length) ∧
        (t.engine.lenOvf = true ↔ e.lenOvf = true ∨
          ∃ j, 1 ≤ j ∧ j ≤ e.pend.length ∧ (2 ^ 64 ≤ e.bitlen.toNat + 8 * j ∨
            (s.config.lenMode = .trunc32 ∧ 2 ^ 32 ≤ (e.bitlen.toNat + 8 * j) % 2 ^ 64))) ∧
        t.engine.wv = e.wv ∧ t.engine.rnd = e.rnd)

/-- R119 in the engine: 64 engine steps from the start of a block leave ROUNDS64 of the accumulators and BUF in the working variables, and the accumulation step due. -/
def Obligations.SixtyFourStepsComputeRounds64 : Prop :=
  ∀ (lm : LenMode) (e : Engine), e.stage = .rounds → e.rnd = 0 → e.wv = e.acc →
    engineRun lm 64 e = { e with wv := rounds64 e.acc (Memory.read e.buf), rnd := 63, stage := .accum }

/-- R161.1, R161.2 and R200: the engine has no step while STAGE = IDLE and one in every other stage; an engine turn that finds it idle changes nothing of it or of the host
(the model's choice, log entry 7). -/
def Obligations.EngineStepsOnlyWhileBusy : Prop :=
  ∀ s : State,
    (engineStep? s.config.lenMode s.engine = none ↔ s.engine.stage = .idle) ∧
    (nextTurn s = .engine → s.engine.stage = .idle → step s = .next { s with turns := s.turns.tail })

/-- R161.4: FINAL keeps BUSY = 1 for exactly 65 engine steps when c ≤ 55 and exactly 130 when c ≥ 56, and then MODE = DONE. -/
def Obligations.FinalTakesSixtyFiveStepsPerBlock : Prop :=
  ∀ (lm : LenMode) (e : Engine), e.stage = .idle → e.mode = .absorb → e.cnt ≤ 63 →
    let n := if e.cnt ≤ 55 then 65 else 130
    (∀ k, k < n → (engineRun lm k (finalCommand lm e)).stage ≠ .idle) ∧
    (engineRun lm n (finalCommand lm e)).stage = .idle ∧
    (engineRun lm n (finalCommand lm e)).mode = .done

/-- R161.4 with R155 and R160: a PUSH that fills the block keeps BUSY = 1 for exactly 65 engine steps, after which the bytes beyond the boundary are in BUF. -/
def Obligations.FillingPushTakesSixtyFiveSteps : Prop :=
  ∀ (lm : LenMode) (e : Engine) (nb : BitVec 2),
    e.stage = .idle → e.mode = .absorb → e.cnt ≤ 63 → 64 ≤ e.cnt + (nb.toNat + 1) →
    (∀ k, k < 65 → (engineRun lm k (pushCommand lm nb e)).stage ≠ .idle) ∧
    (engineRun lm 65 (pushCommand lm nb e)).stage = .idle ∧
    (engineRun lm 65 (pushCommand lm nb e)).mode = .absorb ∧
    (engineRun lm 65 (pushCommand lm nb e)).pend = [] ∧
    (engineRun lm 65 (pushCommand lm nb e)).cnt = e.cnt + (nb.toNat + 1) - 64 ∧
    (engineRun lm 65 (pushCommand lm nb e)).acc = compressBlock e.acc (Memory.read (pushCommand lm nb e).buf) ∧
    ∀ j, j < e.cnt + (nb.toNat + 1) - 64 →
      Memory.read (engineRun lm 65 (pushCommand lm nb e)).buf j =
        e.data.extractLsb' (8 * (64 - e.cnt + j)) 8

/-! ### Rules of the whole machine -/

/-- R213: only a PUSH that fills the block and FINAL make BUSY = 1; so an observed BUSY = 0 stays until the host's next CMD write (R161.1). -/
def Obligations.BusyRisesOnlyByFillingPushOrFinal : Prop :=
  ∀ s t : State, step s = .next t → s.engine.stage = .idle → t.engine.stage ≠ .idle →
    commandAccepted s = some .final ∨
    ∃ nb, commandAccepted s = some (.push nb) ∧ 64 ≤ s.engine.cnt + (nb.toNat + 1)

/-- R191 and R195: ERR_CMD, ERR_BUSY and LEN_OVF are sticky; each is cleared only by INIT or reset. -/
def Obligations.StickyFlagsClearedOnlyByInitOrReset : Prop :=
  ∀ s t : State, step s = .next t →
    (s.engine.errCmd = true ∧ t.engine.errCmd = false ∨ s.engine.errBusy = true ∧ t.engine.errBusy = false ∨
      s.engine.lenOvf = true ∧ t.engine.lenOvf = false) →
    nextTurn s = .reset ∨ commandAccepted s = some .init

/-- R191 and R38: each flag has only its own cause. ERR_BUSY is set by a CMD write while BUSY = 1; ERR_CMD by an ILLEGAL word, or PUSH or FINAL after DONE, while BUSY = 0; LEN_OVF when
bytes are absorbed, by PUSH or by an accumulation step with bytes waiting. -/
def Obligations.EachFlagHasOnlyItsOwnCause : Prop :=
  ∀ s t : State, step s = .next t →
    (s.engine.errBusy = false → t.engine.errBusy = true →
      (commandOffered s).isSome ∧ s.engine.stage ≠ .idle) ∧
    (s.engine.errCmd = false → t.engine.errCmd = true →
      ∃ v, commandOffered s = some v ∧ s.engine.stage = .idle ∧
        ((∀ i, v ≠ encode i) ∨ s.engine.mode = .done ∧ v ≠ encode .init)) ∧
    (s.engine.lenOvf = false → t.engine.lenOvf = true →
      (∃ nb, commandAccepted s = some (.push nb)) ∨
      nextTurn s = .engine ∧ s.engine.stage = .accum ∧ s.engine.pend ≠ [])

/-- R20: the accumulators are written only by INIT, by reset, and by the accumulation step. -/
def Obligations.AccumulatorsWrittenOnlyByInitResetAccum : Prop :=
  ∀ s t : State, step s = .next t → t.engine.acc ≠ s.engine.acc →
    nextTurn s = .reset ∨ commandAccepted s = some .init ∨
    nextTurn s = .engine ∧ s.engine.stage = .accum

/-- R22, R39.4: BUF is written by PUSH, by FINAL and by the accumulation step, and by nothing else but reset; so all 64 rounds of a block read the same words. -/
def Obligations.BufWrittenOnlyByPushFinalAccum : Prop :=
  ∀ s t : State, step s = .next t → t.engine.buf ≠ s.engine.buf →
    nextTurn s = .reset ∨ (∃ nb, commandAccepted s = some (.push nb)) ∨ commandAccepted s = some .final ∨
    nextTurn s = .engine ∧ s.engine.stage = .accum

/-- R31: DATA is written by the host's write to it, whatever BUSY is, and by reset, and by nothing else: no command and no engine step changes it. -/
def Obligations.DataWrittenOnlyByHost : Prop :=
  ∀ s t : State, step s = .next t →
    nextTurn s = .reset ∨ t.engine.data = s.engine.data ∨
    ∃ v p, HostMoves s (.write (regAccess s.config.engineBase .data) v) p ∧ t.engine.data = v

/-- R6, R32: no event changes the parameters of the instance, so CFG reads the same for ever. -/
def Obligations.ParametersNeverChange : Prop :=
  ∀ s t : State, step s = .next t →
    t.config = s.config ∧ regRead t.config t.engine .cfg = regRead s.config s.engine .cfg

/-- R59, R51: one event is one host transaction, one engine step or one reset. An engine step touches neither the host's statements nor its
temporaries; a host turn uses up at most its one statement; each event uses up one turn (the list of turns is the model's, log entry 6).
That a reset touches neither the host's statements nor its temporaries is the model's choice (log entry 14). -/
def Obligations.OneEventOneAgent : Prop :=
  ∀ s t : State, step s = .next t →
    t.turns = s.turns.tail ∧
    (nextTurn s ≠ .host → t.prog = s.prog ∧ t.temps = s.temps) ∧
    (nextTurn s = .host → (t.prog = s.prog ∨ t.prog = s.prog.tail) ∧
      (t.temps = s.temps ∨ ∃ a n x p, s.prog = .read a n :: p ∧ t.temps = loadTemp s.temps n x))

/-- R21: the working variables are loaded from the accumulators at the start of a block and written by the engine's rounds, and by nothing else but reset. -/
def Obligations.WorkingVariablesWrittenOnlyByBlockStartAndRounds : Prop :=
  ∀ s t : State, step s = .next t → t.engine.wv ≠ s.engine.wv →
    nextTurn s = .reset ∨
    (t.engine.stage = .rounds ∧ t.engine.rnd = 0 ∧ t.engine.wv = t.engine.acc ∧ s.engine.stage ≠ .rounds) ∨
    (nextTurn s = .engine ∧ s.engine.stage = .rounds)

/-- The canonical form of BUF is kept by every event, from every state that has it. -/
def Obligations.BufStaysCanonical : Prop :=
  ∀ s t : State, Memory.wf s.engine.buf = true → step s = .next t → Memory.wf t.engine.buf = true

/-- R39, with the ranges of R23, R25 and R58: every event keeps the invariant, from every state that meets it, not only from those a run reaches. One clause of
Inv is R160 against R39.6: while the second padding block compresses CNT is 0 (EngineInv.countFinal; log entry 12, DEDUCED, the model's reading). -/
def Obligations.EveryStepKeepsInv : Prop :=
  ∀ s t : State, Inv s → step s = .next t → Inv t

/-- The invariant holds right after reset (R39, R40). -/
def Obligations.ResetMeetsInv : Prop := Inv State.reset

/-- R161.3: an enabled engine step is eventually taken. While the host keeps its duties and no reset comes, the engine's turn comes
after at most as many events as turns are listed, and nothing the host does meanwhile takes its step away (log entry 6). -/
def Obligations.EnabledEngineStepIsTaken : Prop :=
  ∀ s : State, s.engine.stage ≠ .idle → .reset ∉ s.turns → (∀ op ∈ s.prog, WellAddressed s.config op) →
    ∃ n t, n ≤ s.turns.length ∧ core.run n s = .next t ∧ nextTurn t = .engine ∧
      t.engine.stage = s.engine.stage ∧ t.engine.wv = s.engine.wv ∧ t.engine.rnd = s.engine.rnd ∧
      t.engine.buf = s.engine.buf ∧ t.engine.acc = s.engine.acc

/-! ### The digest -/

/-- Right after reset the engine has absorbed nothing, in either mode (R40, R211). -/
def Obligations.ResetTracksEmptyMessage : Prop :=
  ∀ lm : LenMode, Tracks lm [] State.reset.engine

/-- The engine refines the source's algorithm (R99, R141, R142, R163): in every state that meets the invariant, whatever event comes next, an engine that is at its place in
DIGEST_FN of the bytes pushed so far is, after the event, at its place in DIGEST_FN of the bytes pushed then. -/
def Obligations.EveryStepTracksMessage : Prop :=
  ∀ (s t : State) (m : List Byte), Inv s → Tracks s.config.lenMode m s.engine → step s = .next t →
    Tracks s.config.lenMode (messageAfter s m) t.engine

/-- R163 for FINAL: an idle engine that has absorbed exactly m, and takes FINAL, runs to DONE in one pass with the Digest State of DIGEST_FN(m) in the accumulators, and the
four DIGEST reads serialise to DIGEST_FN(m). A run of 65 or 130 engine steps; EveryStepTracksMessage is the step lemma behind it. -/
def Obligations.FinalYieldsDigestOfMessage : Prop :=
  ∀ (c : Config) (m : List Byte) (e : Engine),
    EngineInv e → Tracks c.lenMode m e → e.stage = .idle → e.mode = .absorb →
    let f := engineRun c.lenMode (if m.length % 64 ≤ 55 then 65 else 130) (finalCommand c.lenMode e)
    f.mode = .done ∧ f.stage = .idle ∧
    serialize ⟨regRead c f .digest0, regRead c f .digest1, regRead c f .digest2, regRead c f .digest3⟩ =
      digestFn c.lenMode m

/-- R163: from any fresh computation, for every split of a message into groups of 1 to 4 bytes (with any bits above each group in DATA), in either LEN_MODE and under every
interleaving of engine steps with the host's transactions, DONE is reached, the four DIGEST reads are the state of DIGEST_FN(m), and
STATUS = 0x00000002 OR (LEN_OVF << 4), with LEN_OVF = 1 iff the length overflows. That DONE is reached is the model's choice (log entry 6, DESIGN CHOICE): an interleaving is a finite list of
turns, after which the engine moves while BUSY = 1, so the fairness of R161.3 holds by construction. EveryStepTracksMessage is the step lemma behind this. -/
def Obligations.CommandSequenceComputesDigest : Prop :=
  ∀ (s : State) (gs : List (Word × BitVec 2)),
    Fresh s.engine → .reset ∉ s.turns →
    s.prog = assemble s.config.engineBase (messageStmts gs) →
    ∃ n t, core.run n s = .next t ∧ Final t ∧ t.engine.mode = .done ∧
      regRead t.config t.engine .status =
        (if lengthOverflow s.config.lenMode (messageOf gs).length then 0x00000012 else 0x00000002) ∧
      regRead t.config t.engine .digest0 = (digestState s.config.lenMode (messageOf gs)).a ∧
      regRead t.config t.engine .digest1 = (digestState s.config.lenMode (messageOf gs)).b ∧
      regRead t.config t.engine .digest2 = (digestState s.config.lenMode (messageOf gs)).c ∧
      regRead t.config t.engine .digest3 = (digestState s.config.lenMode (messageOf gs)).d

/-! ### What cannot be told apart -/

/-- R40, R145: what the spec leaves unspecified (BUF beyond CNT, and a, b, c, d and RND while idle) can never be told apart. From two states that differ in
nothing else, every event stops both for the same reason or takes both to states that again differ in nothing else. -/
def Obligations.UnspecifiedElementsStayHidden : Prop :=
  ∀ s t : State, Agree s t → AnswersAgree (step s) (step t)

/-- R164: the observation of two states that differ only in unspecified elements is the same, register by register. -/
def Obligations.AgreeingStatesObserveTheSame : Prop :=
  ∀ s t : State, Agree s t → observe s = observe t ∧ (Final s ↔ Final t)

/-! ### The counters -/

/-- R39.6 with R160: BITLEN is 8 times the number of bytes absorbed, modulo 2^64, and until DONE CNT is that number modulo 64, or 64 while a full block waits.
The one exception is what R160 writes: while the second padding block compresses (FINALIZING with FIN2 = 0 and n mod 64 ≥ 56, BUF holding that block) CNT
is exactly 0 (log entry 12, the model's reading of R39.6 against R160). -/
def Obligations.CountersCountAbsorbedBytes : Prop :=
  ∀ (s : State) (m : List Byte), Inv s → Tracks s.config.lenMode m s.engine →
    let e := s.engine
    let n := absorbedCount m e
    e.bitlen.toNat = 8 * n % 2 ^ 64 ∧
    (e.mode = .absorb → e.stage = .idle → e.cnt = n % 64) ∧
    (e.mode = .absorb → e.stage ≠ .idle → e.cnt = 64 ∧ n % 64 = 0) ∧
    (e.mode = .finalizing → n = m.length ∧
      (e.fin2 = true → 56 ≤ n % 64) ∧
      (e.fin2 = true ∨ n % 64 ≤ 55 →
        e.cnt = n % 64 ∧ AtBlock (byteAt (pad s.config.lenMode m)) (n / 64) e) ∧
      (e.fin2 = false → 56 ≤ n % 64 →
        e.cnt = 0 ∧ AtBlock (byteAt (pad s.config.lenMode m)) (n / 64 + 1) e))

/-! ### The schedule and the tables -/

/-- R117: which mixing function and which message word each round uses, by range of i; g(i) is an index of a message word, and within each range of 16 rounds
it takes each of 0..15 exactly once. -/
def Obligations.RoundSelectsFunctionAndWord : Prop :=
  (∀ i, i < 16 → fsel i = mixF ∧ gsel i = i) ∧
  (∀ i, 16 ≤ i → i < 32 → fsel i = mixG ∧ gsel i = (5 * i + 1) % 16) ∧
  (∀ i, 32 ≤ i → i < 48 → fsel i = mixH ∧ gsel i = (3 * i + 5) % 16) ∧
  (∀ i, 48 ≤ i → i < 64 → fsel i = mixI ∧ gsel i = (7 * i) % 16) ∧
  (∀ i, i < 64 → gsel i ≤ 15) ∧
  (∀ q, q < 4 → ∀ j, j < 16 → ∃ i, i < 16 ∧ gsel (16 * q + i) = j ∧ ∀ i', i' < 16 → gsel (16 * q + i') = j → i' = i)

/-- R35: the rotation amounts, four cycles of four values, each repeated four times; all are between 4 and 23. -/
def Obligations.RotationRomHoldsItsCycles : Prop :=
  (∀ k, k < 4 →
    (rAt (4 * k) = 7 ∧ rAt (4 * k + 1) = 12 ∧ rAt (4 * k + 2) = 17 ∧ rAt (4 * k + 3) = 22) ∧
    (rAt (16 + 4 * k) = 5 ∧ rAt (16 + 4 * k + 1) = 9 ∧ rAt (16 + 4 * k + 2) = 14 ∧ rAt (16 + 4 * k + 3) = 20) ∧
    (rAt (32 + 4 * k) = 4 ∧ rAt (32 + 4 * k + 1) = 11 ∧ rAt (32 + 4 * k + 2) = 16 ∧ rAt (32 + 4 * k + 3) = 23) ∧
    (rAt (48 + 4 * k) = 6 ∧ rAt (48 + 4 * k + 1) = 10 ∧ rAt (48 + 4 * k + 2) = 15 ∧ rAt (48 + 4 * k + 3) = 21)) ∧
  ∀ i, i < 64 → 4 ≤ rAt i ∧ rAt i ≤ 23

/-- R34: the round constant ROM, row by row as the table of R34 prints it: K[i], K[i + 16], K[i + 32] and K[i + 48]. -/
def Obligations.RoundConstantRomHoldsItsTable : Prop :=
  ∀ i, i < 16 →
    ([(0xd76aa478, 0xf61e2562, 0xfffa3942, 0xf4292244), (0xe8c7b756, 0xc040b340, 0x8771f681, 0x432aff97),
       (0x242070db, 0x265e5a51, 0x6d9d6122, 0xab9423a7), (0xc1bdceee, 0xe9b6c7aa, 0xfde5380c, 0xfc93a039),
       (0xf57c0faf, 0xd62f105d, 0xa4beea44, 0x655b59c3), (0x4787c62a, 0x02441453, 0x4bdecfa9, 0x8f0ccc92),
       (0xa8304613, 0xd8a1e681, 0xf6bb4b60, 0xffeff47d), (0xfd469501, 0xe7d3fbc8, 0xbebfbc70, 0x85845dd1)] ++
      [(0x698098d8, 0x21e1cde6, 0x289b7ec6, 0x6fa87e4f), (0x8b44f7af, 0xc33707d6, 0xeaa127fa, 0xfe2ce6e0),
       (0xffff5bb1, 0xf4d50d87, 0xd4ef3085, 0xa3014314), (0x895cd7be, 0x455a14ed, 0x04881d05, 0x4e0811a1),
       (0x6b901122, 0xa9e3e905, 0xd9d4d039, 0xf7537e82), (0xfd987193, 0xfcefa3f8, 0xe6db99e5, 0xbd3af235),
       (0xa679438e, 0x676f02d9, 0x1fa27cf8, 0x2ad7d2bb), (0x49b40821, 0x8d2a4c8a, 0xc4ac5665, 0xeb86d391)])[i]? =
      some (kAt i, kAt (i + 16), kAt (i + 32), kAt (i + 48))

/-- R120: the per-round schedule, row by row as its table prints it: g and R of rounds i, i + 16, i + 32 and i + 48. -/
def Obligations.ScheduleIsItsTable : Prop :=
  ∀ i, i < 16 →
    ([[0, 7, 1, 5, 5, 4, 0, 6], [1, 12, 6, 9, 8, 11, 7, 10],
       [2, 17, 11, 14, 11, 16, 14, 15], [3, 22, 0, 20, 14, 23, 5, 21],
       [4, 7, 5, 5, 1, 4, 12, 6], [5, 12, 10, 9, 4, 11, 3, 10],
       [6, 17, 15, 14, 7, 16, 10, 15], [7, 22, 4, 20, 10, 23, 1, 21]] ++
      [[8, 7, 9, 5, 13, 4, 8, 6], [9, 12, 14, 9, 0, 11, 15, 10],
       [10, 17, 3, 14, 3, 16, 6, 15], [11, 22, 8, 20, 6, 23, 13, 21],
       [12, 7, 13, 5, 9, 4, 4, 6], [13, 12, 2, 9, 12, 11, 11, 10],
       [14, 17, 7, 14, 15, 16, 2, 15], [15, 22, 12, 20, 2, 23, 9, 21]])[i]? =
      some [gsel i, rAt i, gsel (i + 16), rAt (i + 16), gsel (i + 32), rAt (i + 32), gsel (i + 48), rAt (i + 48)]
end

