-- ==== Sys2Proof/Laws/Compression.lean ====
section
/-! SUPPORT. Compression reads a block only at its 64 bytes, so it depends on nothing else: what the proofs about BUF and
about PAD(m) need to meet. -/

namespace Sys2Proof.Machine

theorem kTable_length : kTable.length = 64 := rfl

/-- 0 ≤ g(i) ≤ 15 (R117). -/
theorem gsel_lt {i : Nat} (h : i < 64) : gsel i < 16 := by
  unfold gsel
  split <;> omega

/-- Every rotation amount is between 4 and 23 (R35). -/
theorem rAt_range {i : Nat} (h : i < 64) : 4 ≤ rAt i ∧ rAt i ≤ 23 := by
  interval_cases i <;> decide

theorem messageWord_congr {f g : Nat → Byte} (h : ∀ k, k < 64 → f k = g k) {j : Nat} (hj : j < 16) :
    messageWord f j = messageWord g j := by
  simp only [messageWord, h (4 * j) (by omega), h (4 * j + 1) (by omega), h (4 * j + 2) (by omega),
    h (4 * j + 3) (by omega)]

theorem roundsUpTo_congr {f g : Nat → Byte} (h : ∀ k, k < 64 → f k = g k) (S : Quad) {n : Nat} (hn : n ≤ 64) :
    roundsUpTo S f n = roundsUpTo S g n := by
  induction n with
  | zero => rfl
  | succ n ih =>
    simp only [roundsUpTo, round, ih (by omega), messageWord_congr h (gsel_lt (i := n) (by omega))]

theorem rounds64_congr {f g : Nat → Byte} (h : ∀ k, k < 64 → f k = g k) (S : Quad) : rounds64 S f = rounds64 S g :=
  roundsUpTo_congr h S (Nat.le_refl 64)

theorem compressBlock_congr {f g : Nat → Byte} (h : ∀ k, k < 64 → f k = g k) (S : Quad) :
    compressBlock S f = compressBlock S g := by
  rw [compressBlock, compressBlock, rounds64_congr h]

/-- The state after n blocks depends on the first 64n bytes only (R141). -/
theorem chain_congr {f g : Nat → Byte} (S : Quad) (n : Nat) (h : ∀ k, k < 64 * n → f k = g k) :
    chain S f n = chain S g n := by
  induction n with
  | zero => rfl
  | succ n ih =>
    rw [chain, chain, ih fun k hk => h k (by omega)]
    exact compressBlock_congr (fun k hk => h _ (by omega)) _

end Sys2Proof.Machine
end

