-- ==== Sys2Proof/Laws/Decode.lean ====
section
/-! SUPPORT. The fields of a command word and the word of its fields (R71). -/

namespace Sys2Proof

/-- A word is its three fields (R71). -/
theorem word_of_fields (v : Word) :
    v.toNat = 64 * (fieldRsv v).toNat + 16 * (fieldNb v).toNat + (fieldOpc v).toNat := by
  have h := v.isLt
  simp only [fieldRsv, fieldNb, fieldOpc, BitVec.extractLsb'_toNat, Nat.shiftRight_eq_div_pow]
  omega

theorem fieldRsv_formatC (nb : BitVec 2) (opc : BitVec 4) : fieldRsv (formatC nb opc) = 0 := by
  revert nb opc; decide

theorem fieldNb_formatC (nb : BitVec 2) (opc : BitVec 4) : fieldNb (formatC nb opc) = nb := by
  revert nb opc; decide

theorem fieldOpc_formatC (nb : BitVec 2) (opc : BitVec 4) : fieldOpc (formatC nb opc) = opc := by
  revert nb opc; decide

/-- A word is the legal word of NB and OPC exactly where its fields are these and RSV is zero. -/
theorem eq_formatC_iff (v : Word) (nb : BitVec 2) (opc : BitVec 4) :
    v = formatC nb opc ↔ fieldRsv v = 0 ∧ fieldNb v = nb ∧ fieldOpc v = opc := by
  constructor
  · rintro rfl
    exact ⟨fieldRsv_formatC nb opc, fieldNb_formatC nb opc, fieldOpc_formatC nb opc⟩
  · rintro ⟨h1, h2, h3⟩
    apply BitVec.eq_of_toNat_eq
    rw [word_of_fields v, word_of_fields (formatC nb opc), fieldRsv_formatC, fieldNb_formatC, fieldOpc_formatC,
      h1, h2, h3]

end Sys2Proof
end

