-- ==== Sys2Proof/Laws/Memory.lean ====
section
/-! SUPPORT. What reading, writing and writing in a row do to BUF, and that each keeps the canonical form. The reading
laws hold of every list of pairs, canonical or not. -/

namespace Sys2Proof.Machine

@[simp] theorem Memory.read_nil (a : Nat) : Memory.read [] a = Memory.fill := rfl

theorem Memory.read_erase (m : Memory) (a b : Nat) :
    Memory.read (Memory.erase m a) b = if b = a then Memory.fill else Memory.read m b := by
  induction m with
  | nil => simp [Memory.erase]
  | cons c m ih =>
    obtain ⟨k, v⟩ := c
    by_cases hk : k = a
    · subst hk
      by_cases hb : b = k
      · subst hb; simpa [Memory.erase] using ih
      · simp [Memory.erase, ih, hb, Memory.read, Ne.symm hb]
    · by_cases hb : b = a
      · subst hb; simp [Memory.erase, hk, Memory.read, ih]
      · simp [Memory.erase, hk, Memory.read, ih, hb]

theorem Memory.read_insert (m : Memory) (a b : Nat) (v : Byte) (h : Memory.read m a = Memory.fill ∨ b ≠ a)
    (hm : ∀ c ∈ m, c.1 ≠ a) :
    Memory.read (Memory.insert m a v) b = if b = a then v else Memory.read m b := by
  induction m with
  | nil => simp [Memory.insert, Memory.read, eq_comm]
  | cons c m ih =>
    obtain ⟨k, w⟩ := c
    have hk : k ≠ a := hm (k, w) (by simp)
    have hm' : ∀ c ∈ m, c.1 ≠ a := fun c hc => hm c (by simp [hc])
    have ih := ih (by simpa [Memory.read, hk] using h) hm'
    by_cases hlt : k < a
    · by_cases hb : b = a
      · subst hb; simp [Memory.insert, hlt, Memory.read, hk, ih]
      · simp [Memory.insert, hlt, Memory.read, ih, hb]
    · by_cases hb : b = a
      · subst hb; simp [Memory.insert, hlt, Memory.read]
      · simp [Memory.insert, hlt, Memory.read, hb, Ne.symm hb]

theorem Memory.ne_of_mem_erase {m : Memory} {a : Nat} {c : Host.Cell} (h : c ∈ Memory.erase m a) : c.1 ≠ a := by
  induction m with
  | nil => simp [Memory.erase] at h
  | cons x m ih =>
    obtain ⟨k, v⟩ := x
    by_cases hk : k = a
    · exact ih (by simpa [Memory.erase, hk] using h)
    · rw [Memory.erase, if_neg hk, List.mem_cons] at h
      rcases h with rfl | h
      · exact hk
      · exact ih h

theorem Memory.read_enter (m : Memory) (a b : Nat) (v : Byte) :
    Memory.read (Memory.enter m a v) b = if b = a then v else Memory.read m b := by
  unfold Memory.enter
  by_cases hv : v = Memory.fill
  · rw [if_pos hv, Memory.read_erase, hv]
  · rw [if_neg hv, Memory.read_insert]
    · by_cases hb : b = a <;> simp [hb, Memory.read_erase]
    · exact .inl (by simp [Memory.read_erase])
    · exact fun c hc => Memory.ne_of_mem_erase hc

/-- A write is read back where it went, if BUF has that index, and leaves every other index alone. -/
theorem Memory.read_write (m : Memory) (a b : Nat) (v : Byte) :
    Memory.read (Memory.write m a v) b = if b = a ∧ a < 64 then v else Memory.read m b := by
  unfold Memory.write
  by_cases ha : a < 64
  · simp [ha, Memory.read_enter]
  · simp [ha]

theorem Memory.read_write_same (m : Memory) {a : Nat} (v : Byte) (h : a < 64) :
    Memory.read (Memory.write m a v) a = v := by
  simp [Memory.read_write, h]

theorem Memory.read_write_other (m : Memory) {a b : Nat} (v : Byte) (h : b ≠ a) :
    Memory.read (Memory.write m a v) b = Memory.read m b := by
  simp [Memory.read_write, h]

/-- A row of bytes is read back where it went, inside BUF, and leaves every other index alone. -/
theorem Memory.read_writeBytes (m : Memory) (a b : Nat) (vs : List Byte) :
    Memory.read (Memory.writeBytes m a vs) b =
      if a ≤ b ∧ b < a + vs.length ∧ b < 64 then vs.getD (b - a) 0 else Memory.read m b := by
  induction vs generalizing m a with
  | nil =>
    rw [Memory.writeBytes, if_neg (by simp; omega)]
  | cons v vs ih =>
    rw [Memory.writeBytes, ih, Memory.read_write, List.length_cons]
    by_cases hb : b = a
    · subst hb
      have h1 : ¬ (b + 1 ≤ b ∧ b < b + 1 + vs.length ∧ b < 64) := by omega
      by_cases h64 : b < 64 <;> simp [h64]
    · by_cases hr : a + 1 ≤ b ∧ b < a + 1 + vs.length ∧ b < 64
      · have hr' : a ≤ b ∧ b < a + (vs.length + 1) ∧ b < 64 := by omega
        obtain ⟨d, hd⟩ : ∃ d, b - a = d + 1 := ⟨b - a - 1, by omega⟩
        have hd' : b - (a + 1) = d := by omega
        rw [if_pos hr, if_pos hr', hd, hd', List.getD_cons_succ]
      · have hr' : ¬ (a ≤ b ∧ b < a + (vs.length + 1) ∧ b < 64) := by omega
        rw [if_neg hr, if_neg hr', if_neg (by omega)]

theorem Memory.read_writeBytes_in (m : Memory) {a j : Nat} {vs : List Byte} (hj : j < vs.length) (h64 : a + j < 64) :
    Memory.read (Memory.writeBytes m a vs) (a + j) = vs.getD j 0 := by
  rw [Memory.read_writeBytes, if_pos ⟨by omega, by omega, h64⟩, Nat.add_sub_cancel_left]

theorem Memory.read_writeBytes_out (m : Memory) {a b : Nat} {vs : List Byte} (h : b < a ∨ a + vs.length ≤ b ∨ 64 ≤ b) :
    Memory.read (Memory.writeBytes m a vs) b = Memory.read m b := by
  rw [Memory.read_writeBytes, if_neg (by omega)]

/-! ### The canonical form -/

theorem Memory.wfFrom_mono {lo lo' : Nat} {m : Memory} (h : lo' ≤ lo) (hm : Memory.wfFrom lo m = true) :
    Memory.wfFrom lo' m = true := by
  cases m with
  | nil => rfl
  | cons c m =>
    simp only [Memory.wfFrom, Bool.and_eq_true, decide_eq_true_eq] at hm ⊢
    exact ⟨⟨⟨by omega, hm.1.1.2⟩, hm.1.2⟩, hm.2⟩

theorem Memory.wfFrom_erase {lo : Nat} {m : Memory} (a : Nat) (hm : Memory.wfFrom lo m = true) :
    Memory.wfFrom lo (Memory.erase m a) = true := by
  induction m generalizing lo with
  | nil => rfl
  | cons c m ih =>
    obtain ⟨k, v⟩ := c
    simp only [Memory.wfFrom, Bool.and_eq_true, decide_eq_true_eq] at hm
    have ih := ih hm.2
    by_cases hk : k = a
    · rw [Memory.erase, if_pos hk]
      exact Memory.wfFrom_mono (by omega) ih
    · rw [Memory.erase, if_neg hk, Memory.wfFrom]
      simp only [Bool.and_eq_true, decide_eq_true_eq]
      exact ⟨hm.1, ih⟩

theorem Memory.wfFrom_insert {lo a : Nat} {v : Byte} {m : Memory} (ha : lo ≤ a) (h64 : a < 64) (hv : v ≠ Memory.fill)
    (hne : ∀ c ∈ m, c.1 ≠ a) (hm : Memory.wfFrom lo m = true) :
    Memory.wfFrom lo (Memory.insert m a v) = true := by
  induction m generalizing lo with
  | nil => simp [Memory.insert, Memory.wfFrom, ha, h64, hv]
  | cons c m ih =>
    obtain ⟨k, w⟩ := c
    have hk : k ≠ a := hne (k, w) (by simp)
    simp only [Memory.wfFrom, Bool.and_eq_true, decide_eq_true_eq] at hm
    by_cases hlt : k < a
    · have ih := ih (lo := k + 1) (by omega) (fun c hc => hne c (by simp [hc])) hm.2
      simp only [Memory.insert, hlt, if_true, Memory.wfFrom, Bool.and_eq_true, decide_eq_true_eq]
      exact ⟨hm.1, ih⟩
    · simp only [Memory.insert, hlt, if_false, Memory.wfFrom, Bool.and_eq_true, decide_eq_true_eq]
      exact ⟨⟨⟨ha, h64⟩, by simpa using hv⟩, ⟨⟨by omega, hm.1.1.2⟩, hm.1.2⟩, hm.2⟩

/-- A write keeps the canonical form. -/
theorem Memory.wf_write {m : Memory} (a : Nat) (v : Byte) (hm : Memory.wf m = true) :
    Memory.wf (Memory.write m a v) = true := by
  unfold Memory.write Memory.enter Memory.wf at *
  split
  · split
    · exact Memory.wfFrom_erase a hm
    · exact Memory.wfFrom_insert (Nat.zero_le a) ‹_› ‹_› (fun c hc => Memory.ne_of_mem_erase hc)
        (Memory.wfFrom_erase a hm)
  · exact hm

/-- A row of writes keeps the canonical form. -/
theorem Memory.wf_writeBytes {m : Memory} (a : Nat) (vs : List Byte) (hm : Memory.wf m = true) :
    Memory.wf (Memory.writeBytes m a vs) = true := by
  induction vs generalizing m a with
  | nil => exact hm
  | cons v vs ih => exact ih (a + 1) (Memory.wf_write a v hm)

theorem Memory.wf_nil : Memory.wf [] = true := rfl

theorem Memory.read_of_wfFrom {lo a : Nat} {m : Memory} (hm : Memory.wfFrom lo m = true) (ha : a < lo) :
    Memory.read m a = Memory.fill := by
  induction m generalizing lo with
  | nil => rfl
  | cons c m ih =>
    obtain ⟨k, v⟩ := c
    simp only [Memory.wfFrom, Bool.and_eq_true, decide_eq_true_eq] at hm
    have hk : k ≠ a := by omega
    simpa [Memory.read, hk] using ih hm.2 (by omega)

/-- In canonical form equal contents are equal data. -/
theorem Memory.ext_of_wfFrom {lo : Nat} {m n : Memory} (hm : Memory.wfFrom lo m = true) (hn : Memory.wfFrom lo n = true)
    (h : ∀ a, Memory.read m a = Memory.read n a) : m = n := by
  induction m generalizing lo n with
  | nil =>
    cases n with
    | nil => rfl
    | cons c n =>
      obtain ⟨k, v⟩ := c
      simp only [Memory.wfFrom, Bool.and_eq_true, bne_iff_ne] at hn
      exact absurd (by simpa [Memory.read] using (h k).symm) hn.1.2
  | cons c m ih =>
    obtain ⟨k, v⟩ := c
    have hm' := hm
    simp only [Memory.wfFrom, Bool.and_eq_true, decide_eq_true_eq, bne_iff_ne] at hm'
    cases n with
    | nil => exact absurd (by simpa [Memory.read] using h k) hm'.1.2
    | cons c n =>
      obtain ⟨k', v'⟩ := c
      have hn' := hn
      simp only [Memory.wfFrom, Bool.and_eq_true, decide_eq_true_eq, bne_iff_ne] at hn'
      have hkk : k = k' := by
        rcases Nat.lt_trichotomy k k' with hlt | heq | hlt
        · have := h k
          rw [show Memory.read ((k', v') :: n) k = Memory.read n k by simp [Memory.read]; omega,
            Memory.read_of_wfFrom hn'.2 (by omega)] at this
          exact absurd (by simpa [Memory.read] using this) hm'.1.2
        · exact heq
        · have := h k'
          rw [show Memory.read ((k, v) :: m) k' = Memory.read m k' by simp [Memory.read]; omega,
            Memory.read_of_wfFrom hm'.2 (by omega)] at this
          exact absurd (by simpa [Memory.read] using this.symm) hn'.1.2
      subst hkk
      have hv : v = v' := by simpa [Memory.read] using h k
      subst hv
      rw [ih hm'.2 hn'.2 fun a => ?_]
      by_cases ha : k = a
      · subst ha
        rw [Memory.read_of_wfFrom hm'.2 (by omega), Memory.read_of_wfFrom hn'.2 (by omega)]
      · simpa [Memory.read, ha] using h a

theorem Memory.ext_of_wf {m n : Memory} (hm : Memory.wf m = true) (hn : Memory.wf n = true)
    (h : ∀ a, Memory.read m a = Memory.read n a) : m = n :=
  Memory.ext_of_wfFrom hm hn h

end Sys2Proof.Machine
end

