-- ==== Sys2Proof/Laws/State.lean ====
section
/-! SUPPORT. One lemma for each field and each update of the state, true by rfl, so that no proof unfolds a record update. -/

namespace Sys2Proof.Machine

/-! ### The machine's state -/

@[simp] theorem State.withEngine_engine (s : State) (x : Engine) : (s.withEngine x).engine = x := rfl
@[simp] theorem State.withEngine_config (s : State) (x : Engine) : (s.withEngine x).config = s.config := rfl
@[simp] theorem State.withEngine_prog (s : State) (x : Engine) : (s.withEngine x).prog = s.prog := rfl
@[simp] theorem State.withEngine_temps (s : State) (x : Engine) : (s.withEngine x).temps = s.temps := rfl
@[simp] theorem State.withEngine_turns (s : State) (x : Engine) : (s.withEngine x).turns = s.turns := rfl

@[simp] theorem State.withProg_engine (s : State) (x : List HostOp) : (s.withProg x).engine = s.engine := rfl
@[simp] theorem State.withProg_config (s : State) (x : List HostOp) : (s.withProg x).config = s.config := rfl
@[simp] theorem State.withProg_prog (s : State) (x : List HostOp) : (s.withProg x).prog = x := rfl
@[simp] theorem State.withProg_temps (s : State) (x : List HostOp) : (s.withProg x).temps = s.temps := rfl
@[simp] theorem State.withProg_turns (s : State) (x : List HostOp) : (s.withProg x).turns = s.turns := rfl

@[simp] theorem State.withTemps_engine (s : State) (x : List (Nat × Word)) : (s.withTemps x).engine = s.engine := rfl
@[simp] theorem State.withTemps_config (s : State) (x : List (Nat × Word)) : (s.withTemps x).config = s.config := rfl
@[simp] theorem State.withTemps_prog (s : State) (x : List (Nat × Word)) : (s.withTemps x).prog = s.prog := rfl
@[simp] theorem State.withTemps_temps (s : State) (x : List (Nat × Word)) : (s.withTemps x).temps = x := rfl
@[simp] theorem State.withTemps_turns (s : State) (x : List (Nat × Word)) : (s.withTemps x).turns = s.turns := rfl

@[simp] theorem State.withTurns_engine (s : State) (x : List Turn) : (s.withTurns x).engine = s.engine := rfl
@[simp] theorem State.withTurns_config (s : State) (x : List Turn) : (s.withTurns x).config = s.config := rfl
@[simp] theorem State.withTurns_prog (s : State) (x : List Turn) : (s.withTurns x).prog = s.prog := rfl
@[simp] theorem State.withTurns_temps (s : State) (x : List Turn) : (s.withTurns x).temps = s.temps := rfl
@[simp] theorem State.withTurns_turns (s : State) (x : List Turn) : (s.withTurns x).turns = x := rfl

/-! ### Engine.setErrCmd -/

@[simp] theorem Engine.setErrCmd_acc (e : Engine) : (e.setErrCmd).acc = e.acc := rfl
@[simp] theorem Engine.setErrCmd_wv (e : Engine) : (e.setErrCmd).wv = e.wv := rfl
@[simp] theorem Engine.setErrCmd_buf (e : Engine) : (e.setErrCmd).buf = e.buf := rfl
@[simp] theorem Engine.setErrCmd_cnt (e : Engine) : (e.setErrCmd).cnt = e.cnt := rfl
@[simp] theorem Engine.setErrCmd_bitlen (e : Engine) : (e.setErrCmd).bitlen = e.bitlen := rfl
@[simp] theorem Engine.setErrCmd_pend (e : Engine) : (e.setErrCmd).pend = e.pend := rfl
@[simp] theorem Engine.setErrCmd_rnd (e : Engine) : (e.setErrCmd).rnd = e.rnd := rfl
@[simp] theorem Engine.setErrCmd_stage (e : Engine) : (e.setErrCmd).stage = e.stage := rfl
@[simp] theorem Engine.setErrCmd_mode (e : Engine) : (e.setErrCmd).mode = e.mode := rfl
@[simp] theorem Engine.setErrCmd_fin2 (e : Engine) : (e.setErrCmd).fin2 = e.fin2 := rfl
@[simp] theorem Engine.setErrCmd_lenf (e : Engine) : (e.setErrCmd).lenf = e.lenf := rfl
@[simp] theorem Engine.setErrCmd_errCmd (e : Engine) : (e.setErrCmd).errCmd = true := rfl
@[simp] theorem Engine.setErrCmd_errBusy (e : Engine) : (e.setErrCmd).errBusy = e.errBusy := rfl
@[simp] theorem Engine.setErrCmd_lenOvf (e : Engine) : (e.setErrCmd).lenOvf = e.lenOvf := rfl
@[simp] theorem Engine.setErrCmd_data (e : Engine) : (e.setErrCmd).data = e.data := rfl

/-! ### Engine.setErrBusy -/

@[simp] theorem Engine.setErrBusy_acc (e : Engine) : (e.setErrBusy).acc = e.acc := rfl
@[simp] theorem Engine.setErrBusy_wv (e : Engine) : (e.setErrBusy).wv = e.wv := rfl
@[simp] theorem Engine.setErrBusy_buf (e : Engine) : (e.setErrBusy).buf = e.buf := rfl
@[simp] theorem Engine.setErrBusy_cnt (e : Engine) : (e.setErrBusy).cnt = e.cnt := rfl
@[simp] theorem Engine.setErrBusy_bitlen (e : Engine) : (e.setErrBusy).bitlen = e.bitlen := rfl
@[simp] theorem Engine.setErrBusy_pend (e : Engine) : (e.setErrBusy).pend = e.pend := rfl
@[simp] theorem Engine.setErrBusy_rnd (e : Engine) : (e.setErrBusy).rnd = e.rnd := rfl
@[simp] theorem Engine.setErrBusy_stage (e : Engine) : (e.setErrBusy).stage = e.stage := rfl
@[simp] theorem Engine.setErrBusy_mode (e : Engine) : (e.setErrBusy).mode = e.mode := rfl
@[simp] theorem Engine.setErrBusy_fin2 (e : Engine) : (e.setErrBusy).fin2 = e.fin2 := rfl
@[simp] theorem Engine.setErrBusy_lenf (e : Engine) : (e.setErrBusy).lenf = e.lenf := rfl
@[simp] theorem Engine.setErrBusy_errCmd (e : Engine) : (e.setErrBusy).errCmd = e.errCmd := rfl
@[simp] theorem Engine.setErrBusy_errBusy (e : Engine) : (e.setErrBusy).errBusy = true := rfl
@[simp] theorem Engine.setErrBusy_lenOvf (e : Engine) : (e.setErrBusy).lenOvf = e.lenOvf := rfl
@[simp] theorem Engine.setErrBusy_data (e : Engine) : (e.setErrBusy).data = e.data := rfl

/-! ### Engine.withPend -/

@[simp] theorem Engine.withPend_acc (e : Engine) (x : List Byte) : (e.withPend x).acc = e.acc := rfl
@[simp] theorem Engine.withPend_wv (e : Engine) (x : List Byte) : (e.withPend x).wv = e.wv := rfl
@[simp] theorem Engine.withPend_buf (e : Engine) (x : List Byte) : (e.withPend x).buf = e.buf := rfl
@[simp] theorem Engine.withPend_cnt (e : Engine) (x : List Byte) : (e.withPend x).cnt = e.cnt := rfl
@[simp] theorem Engine.withPend_bitlen (e : Engine) (x : List Byte) : (e.withPend x).bitlen = e.bitlen := rfl
@[simp] theorem Engine.withPend_pend (e : Engine) (x : List Byte) : (e.withPend x).pend = x := rfl
@[simp] theorem Engine.withPend_rnd (e : Engine) (x : List Byte) : (e.withPend x).rnd = e.rnd := rfl
@[simp] theorem Engine.withPend_stage (e : Engine) (x : List Byte) : (e.withPend x).stage = e.stage := rfl
@[simp] theorem Engine.withPend_mode (e : Engine) (x : List Byte) : (e.withPend x).mode = e.mode := rfl
@[simp] theorem Engine.withPend_fin2 (e : Engine) (x : List Byte) : (e.withPend x).fin2 = e.fin2 := rfl
@[simp] theorem Engine.withPend_lenf (e : Engine) (x : List Byte) : (e.withPend x).lenf = e.lenf := rfl
@[simp] theorem Engine.withPend_errCmd (e : Engine) (x : List Byte) : (e.withPend x).errCmd = e.errCmd := rfl
@[simp] theorem Engine.withPend_errBusy (e : Engine) (x : List Byte) : (e.withPend x).errBusy = e.errBusy := rfl
@[simp] theorem Engine.withPend_lenOvf (e : Engine) (x : List Byte) : (e.withPend x).lenOvf = e.lenOvf := rfl
@[simp] theorem Engine.withPend_data (e : Engine) (x : List Byte) : (e.withPend x).data = e.data := rfl

/-! ### Engine.withData -/

@[simp] theorem Engine.withData_acc (e : Engine) (x : Word) : (e.withData x).acc = e.acc := rfl
@[simp] theorem Engine.withData_wv (e : Engine) (x : Word) : (e.withData x).wv = e.wv := rfl
@[simp] theorem Engine.withData_buf (e : Engine) (x : Word) : (e.withData x).buf = e.buf := rfl
@[simp] theorem Engine.withData_cnt (e : Engine) (x : Word) : (e.withData x).cnt = e.cnt := rfl
@[simp] theorem Engine.withData_bitlen (e : Engine) (x : Word) : (e.withData x).bitlen = e.bitlen := rfl
@[simp] theorem Engine.withData_pend (e : Engine) (x : Word) : (e.withData x).pend = e.pend := rfl
@[simp] theorem Engine.withData_rnd (e : Engine) (x : Word) : (e.withData x).rnd = e.rnd := rfl
@[simp] theorem Engine.withData_stage (e : Engine) (x : Word) : (e.withData x).stage = e.stage := rfl
@[simp] theorem Engine.withData_mode (e : Engine) (x : Word) : (e.withData x).mode = e.mode := rfl
@[simp] theorem Engine.withData_fin2 (e : Engine) (x : Word) : (e.withData x).fin2 = e.fin2 := rfl
@[simp] theorem Engine.withData_lenf (e : Engine) (x : Word) : (e.withData x).lenf = e.lenf := rfl
@[simp] theorem Engine.withData_errCmd (e : Engine) (x : Word) : (e.withData x).errCmd = e.errCmd := rfl
@[simp] theorem Engine.withData_errBusy (e : Engine) (x : Word) : (e.withData x).errBusy = e.errBusy := rfl
@[simp] theorem Engine.withData_lenOvf (e : Engine) (x : Word) : (e.withData x).lenOvf = e.lenOvf := rfl
@[simp] theorem Engine.withData_data (e : Engine) (x : Word) : (e.withData x).data = x := rfl

/-! ### foldBlock -/

@[simp] theorem foldBlock_acc (e : Engine) : (foldBlock e).acc = accumulate e.acc e.wv := rfl
@[simp] theorem foldBlock_wv (e : Engine) : (foldBlock e).wv = e.wv := rfl
@[simp] theorem foldBlock_buf (e : Engine) : (foldBlock e).buf = e.buf := rfl
@[simp] theorem foldBlock_cnt (e : Engine) : (foldBlock e).cnt = 0 := rfl
@[simp] theorem foldBlock_bitlen (e : Engine) : (foldBlock e).bitlen = e.bitlen := rfl
@[simp] theorem foldBlock_pend (e : Engine) : (foldBlock e).pend = e.pend := rfl
@[simp] theorem foldBlock_rnd (e : Engine) : (foldBlock e).rnd = e.rnd := rfl
@[simp] theorem foldBlock_stage (e : Engine) : (foldBlock e).stage = .idle := rfl
@[simp] theorem foldBlock_mode (e : Engine) : (foldBlock e).mode = e.mode := rfl
@[simp] theorem foldBlock_fin2 (e : Engine) : (foldBlock e).fin2 = e.fin2 := rfl
@[simp] theorem foldBlock_lenf (e : Engine) : (foldBlock e).lenf = e.lenf := rfl
@[simp] theorem foldBlock_errCmd (e : Engine) : (foldBlock e).errCmd = e.errCmd := rfl
@[simp] theorem foldBlock_errBusy (e : Engine) : (foldBlock e).errBusy = e.errBusy := rfl
@[simp] theorem foldBlock_lenOvf (e : Engine) : (foldBlock e).lenOvf = e.lenOvf := rfl
@[simp] theorem foldBlock_data (e : Engine) : (foldBlock e).data = e.data := rfl

/-! ### startBlock (R157) -/

@[simp] theorem startBlock_acc (e : Engine) : (startBlock e).acc = e.acc := rfl
@[simp] theorem startBlock_wv (e : Engine) : (startBlock e).wv = e.acc := rfl
@[simp] theorem startBlock_buf (e : Engine) : (startBlock e).buf = e.buf := rfl
@[simp] theorem startBlock_cnt (e : Engine) : (startBlock e).cnt = e.cnt := rfl
@[simp] theorem startBlock_bitlen (e : Engine) : (startBlock e).bitlen = e.bitlen := rfl
@[simp] theorem startBlock_pend (e : Engine) : (startBlock e).pend = e.pend := rfl
@[simp] theorem startBlock_rnd (e : Engine) : (startBlock e).rnd = 0 := rfl
@[simp] theorem startBlock_stage (e : Engine) : (startBlock e).stage = .rounds := rfl
@[simp] theorem startBlock_mode (e : Engine) : (startBlock e).mode = e.mode := rfl
@[simp] theorem startBlock_fin2 (e : Engine) : (startBlock e).fin2 = e.fin2 := rfl
@[simp] theorem startBlock_lenf (e : Engine) : (startBlock e).lenf = e.lenf := rfl
@[simp] theorem startBlock_errCmd (e : Engine) : (startBlock e).errCmd = e.errCmd := rfl
@[simp] theorem startBlock_errBusy (e : Engine) : (startBlock e).errBusy = e.errBusy := rfl
@[simp] theorem startBlock_lenOvf (e : Engine) : (startBlock e).lenOvf = e.lenOvf := rfl
@[simp] theorem startBlock_data (e : Engine) : (startBlock e).data = e.data := rfl

/-! ### initCommand (R154) -/

@[simp] theorem initCommand_acc (e : Engine) : (initCommand e).acc = iv := rfl
@[simp] theorem initCommand_wv (e : Engine) : (initCommand e).wv = e.wv := rfl
@[simp] theorem initCommand_buf (e : Engine) : (initCommand e).buf = e.buf := rfl
@[simp] theorem initCommand_cnt (e : Engine) : (initCommand e).cnt = 0 := rfl
@[simp] theorem initCommand_bitlen (e : Engine) : (initCommand e).bitlen = 0 := rfl
@[simp] theorem initCommand_pend (e : Engine) : (initCommand e).pend = [] := rfl
@[simp] theorem initCommand_rnd (e : Engine) : (initCommand e).rnd = e.rnd := rfl
@[simp] theorem initCommand_stage (e : Engine) : (initCommand e).stage = e.stage := rfl
@[simp] theorem initCommand_mode (e : Engine) : (initCommand e).mode = .absorb := rfl
@[simp] theorem initCommand_fin2 (e : Engine) : (initCommand e).fin2 = false := rfl
@[simp] theorem initCommand_lenf (e : Engine) : (initCommand e).lenf = 0 := rfl
@[simp] theorem initCommand_errCmd (e : Engine) : (initCommand e).errCmd = false := rfl
@[simp] theorem initCommand_errBusy (e : Engine) : (initCommand e).errBusy = false := rfl
@[simp] theorem initCommand_lenOvf (e : Engine) : (initCommand e).lenOvf = false := rfl
@[simp] theorem initCommand_data (e : Engine) : (initCommand e).data = e.data := rfl

/-! ### finalCommand (R156) -/

@[simp] theorem finalCommand_acc (m : LenMode) (e : Engine) : (finalCommand m e).acc = e.acc := rfl
@[simp] theorem finalCommand_wv (m : LenMode) (e : Engine) : (finalCommand m e).wv = e.acc := rfl
@[simp] theorem finalCommand_buf (m : LenMode) (e : Engine) : (finalCommand m e).buf = Memory.writeBytes e.buf e.cnt (finalTail e.cnt (lengthField m e.bitlen)) := rfl
@[simp] theorem finalCommand_cnt (m : LenMode) (e : Engine) : (finalCommand m e).cnt = e.cnt := rfl
@[simp] theorem finalCommand_bitlen (m : LenMode) (e : Engine) : (finalCommand m e).bitlen = e.bitlen := rfl
@[simp] theorem finalCommand_pend (m : LenMode) (e : Engine) : (finalCommand m e).pend = e.pend := rfl
@[simp] theorem finalCommand_rnd (m : LenMode) (e : Engine) : (finalCommand m e).rnd = 0 := rfl
@[simp] theorem finalCommand_stage (m : LenMode) (e : Engine) : (finalCommand m e).stage = .rounds := rfl
@[simp] theorem finalCommand_mode (m : LenMode) (e : Engine) : (finalCommand m e).mode = .finalizing := rfl
@[simp] theorem finalCommand_fin2 (m : LenMode) (e : Engine) : (finalCommand m e).fin2 = decide (55 < e.cnt) := rfl
@[simp] theorem finalCommand_lenf (m : LenMode) (e : Engine) : (finalCommand m e).lenf = lengthField m e.bitlen := rfl
@[simp] theorem finalCommand_errCmd (m : LenMode) (e : Engine) : (finalCommand m e).errCmd = e.errCmd := rfl
@[simp] theorem finalCommand_errBusy (m : LenMode) (e : Engine) : (finalCommand m e).errBusy = e.errBusy := rfl
@[simp] theorem finalCommand_lenOvf (m : LenMode) (e : Engine) : (finalCommand m e).lenOvf = e.lenOvf := rfl
@[simp] theorem finalCommand_data (m : LenMode) (e : Engine) : (finalCommand m e).data = e.data := rfl

/-! ### engineRound (R159) -/

@[simp] theorem engineRound_wv (e : Engine) :
    (engineRound e).wv = round e.rnd.val e.wv (messageWord (Memory.read e.buf)) := by
  unfold engineRound; split <;> rfl

theorem engineRound_rnd (e : Engine) : (engineRound e).rnd = if e.rnd.val = 63 then e.rnd else e.rnd + 1 := by
  unfold engineRound; split <;> rfl

theorem engineRound_stage (e : Engine) : (engineRound e).stage = if e.rnd.val = 63 then .accum else e.stage := by
  unfold engineRound; split <;> rfl

@[simp] theorem engineRound_acc (e : Engine) : (engineRound e).acc = e.acc := by
  unfold engineRound; split <;> rfl

@[simp] theorem engineRound_buf (e : Engine) : (engineRound e).buf = e.buf := by
  unfold engineRound; split <;> rfl

@[simp] theorem engineRound_cnt (e : Engine) : (engineRound e).cnt = e.cnt := by
  unfold engineRound; split <;> rfl

@[simp] theorem engineRound_bitlen (e : Engine) : (engineRound e).bitlen = e.bitlen := by
  unfold engineRound; split <;> rfl

@[simp] theorem engineRound_pend (e : Engine) : (engineRound e).pend = e.pend := by
  unfold engineRound; split <;> rfl

@[simp] theorem engineRound_mode (e : Engine) : (engineRound e).mode = e.mode := by
  unfold engineRound; split <;> rfl

@[simp] theorem engineRound_fin2 (e : Engine) : (engineRound e).fin2 = e.fin2 := by
  unfold engineRound; split <;> rfl

@[simp] theorem engineRound_lenf (e : Engine) : (engineRound e).lenf = e.lenf := by
  unfold engineRound; split <;> rfl

@[simp] theorem engineRound_errCmd (e : Engine) : (engineRound e).errCmd = e.errCmd := by
  unfold engineRound; split <;> rfl

@[simp] theorem engineRound_errBusy (e : Engine) : (engineRound e).errBusy = e.errBusy := by
  unfold engineRound; split <;> rfl

@[simp] theorem engineRound_lenOvf (e : Engine) : (engineRound e).lenOvf = e.lenOvf := by
  unfold engineRound; split <;> rfl

@[simp] theorem engineRound_data (e : Engine) : (engineRound e).data = e.data := by
  unfold engineRound; split <;> rfl

/-! ### BUSY and DONE -/

@[simp] theorem Engine.busy_eq_true (e : Engine) : e.busy = true ↔ e.stage ≠ .idle := by simp [Engine.busy]

@[simp] theorem Engine.busy_eq_false (e : Engine) : e.busy = false ↔ e.stage = .idle := by simp [Engine.busy]

@[simp] theorem Engine.isDone_eq_true (e : Engine) : e.isDone = true ↔ e.mode = .done := by simp [Engine.isDone]

@[simp] theorem Engine.isDone_eq_false (e : Engine) : e.isDone = false ↔ e.mode ≠ .done := by simp [Engine.isDone]

end Sys2Proof.Machine
end

