-- ==== Sys2Proof/Laws/Ops.lean ====
section
/-! SUPPORT. What each shared operation can do, said once: the checks of a command word, absorbing one byte and a list of
bytes, the padding FINAL writes, and the engine's own step. -/

namespace Sys2Proof.Machine

/-! ### The checks of a command word -/

theorem unlessBusy_idle {s : State} (k : Answer) (h : s.engine.stage = .idle) : unlessBusy s k = k := by
  simp [unlessBusy, h]

theorem unlessBusy_busy {s : State} (k : Answer) (h : s.engine.stage ≠ .idle) :
    unlessBusy s k = .next (s.withEngine s.engine.setErrBusy) := by
  simp [unlessBusy, h]

theorem unlessDone_open {s : State} (k : Answer) (h : s.engine.mode ≠ .done) : unlessDone s k = k := by
  simp [unlessDone, h]

theorem unlessDone_done {s : State} (k : Answer) (h : s.engine.mode = .done) :
    unlessDone s k = .next (s.withEngine s.engine.setErrCmd) := by
  simp [unlessDone, h]

theorem requireRoom_room {s : State} (k : Answer) (h : s.engine.cnt < 64) : requireRoom s k = k := by
  simp [requireRoom, h]

theorem requireRoom_full {s : State} (k : Answer) (h : 64 ≤ s.engine.cnt) : requireRoom s k = .fault .bufRange := by
  simp [requireRoom, Nat.not_lt.mpr h]

/-! ### ABSORB_BYTE -/

theorem absorbByte_acc (m : LenMode) (x : Byte) (e : Engine) : (absorbByte m x e).acc = e.acc := by
  unfold absorbByte; dsimp only; split <;> rfl

theorem absorbByte_buf (m : LenMode) (x : Byte) (e : Engine) :
    (absorbByte m x e).buf = Memory.write e.buf e.cnt x := by
  unfold absorbByte; dsimp only; split <;> rfl

theorem absorbByte_cnt (m : LenMode) (x : Byte) (e : Engine) : (absorbByte m x e).cnt = e.cnt + 1 := by
  unfold absorbByte; dsimp only; split <;> rfl

theorem absorbByte_bitlen (m : LenMode) (x : Byte) (e : Engine) :
    (absorbByte m x e).bitlen = e.bitlen + 8 := by
  have h : BitVec.ofNat 64 (e.bitlen.toNat + 8) = e.bitlen + 8 := by
    apply BitVec.eq_of_toNat_eq; simp
  unfold absorbByte; dsimp only; split <;> exact h

theorem absorbByte_lenOvf (m : LenMode) (x : Byte) (e : Engine) :
    (absorbByte m x e).lenOvf = (e.lenOvf || absorbOverflows m (e.bitlen.toNat + 8)) := by
  unfold absorbByte; dsimp only; split <;> rfl

theorem absorbByte_pend (m : LenMode) (x : Byte) (e : Engine) : (absorbByte m x e).pend = e.pend := by
  unfold absorbByte; dsimp only; split <;> rfl

theorem absorbByte_mode (m : LenMode) (x : Byte) (e : Engine) : (absorbByte m x e).mode = e.mode := by
  unfold absorbByte; dsimp only; split <;> rfl

theorem absorbByte_fin2 (m : LenMode) (x : Byte) (e : Engine) : (absorbByte m x e).fin2 = e.fin2 := by
  unfold absorbByte; dsimp only; split <;> rfl

theorem absorbByte_lenf (m : LenMode) (x : Byte) (e : Engine) : (absorbByte m x e).lenf = e.lenf := by
  unfold absorbByte; dsimp only; split <;> rfl

theorem absorbByte_errCmd (m : LenMode) (x : Byte) (e : Engine) : (absorbByte m x e).errCmd = e.errCmd := by
  unfold absorbByte; dsimp only; split <;> rfl

theorem absorbByte_errBusy (m : LenMode) (x : Byte) (e : Engine) : (absorbByte m x e).errBusy = e.errBusy := by
  unfold absorbByte; dsimp only; split <;> rfl

theorem absorbByte_data (m : LenMode) (x : Byte) (e : Engine) : (absorbByte m x e).data = e.data := by
  unfold absorbByte; dsimp only; split <;> rfl

/-- The block fills (R153, R157). -/
theorem absorbByte_start {m : LenMode} {x : Byte} {e : Engine} (h : e.cnt = 63) :
    (absorbByte m x e).stage = .rounds ∧ (absorbByte m x e).rnd = 0 ∧ (absorbByte m x e).wv = e.acc := by
  simp [absorbByte, h]

/-- The block does not fill. -/
theorem absorbByte_stay {m : LenMode} {x : Byte} {e : Engine} (h : e.cnt ≠ 63) :
    (absorbByte m x e).stage = e.stage ∧ (absorbByte m x e).rnd = e.rnd ∧ (absorbByte m x e).wv = e.wv := by
  simp [absorbByte, h]

/-! ### ABSORB_LIST -/

/-- An invariant that absorbing one byte, and writing PEND, keep is kept by absorbing a list. -/
theorem absorbList_induct {P : Engine → Prop} (m : LenMode) (bs : List Byte) (e : Engine) (h0 : P e)
    (hp : ∀ e l, P e → P (e.withPend l)) (hb : ∀ e x, P e → P (absorbByte m x e)) :
    P (absorbList m bs e) := by
  induction bs generalizing e with
  | nil => exact hp e [] h0
  | cons x bs ih =>
    have h1 : P (absorbByte m x (e.withPend [])) := hb _ x (hp e [] h0)
    unfold absorbList
    dsimp only
    split
    · exact hp _ bs h1
    · exact ih _ h1

/-- The fields that absorbing leaves alone, from any engine. -/
theorem absorbList_frame (m : LenMode) (bs : List Byte) (e : Engine) :
    (absorbList m bs e).acc = e.acc ∧ (absorbList m bs e).mode = e.mode ∧ (absorbList m bs e).fin2 = e.fin2 ∧
    (absorbList m bs e).lenf = e.lenf ∧ (absorbList m bs e).errCmd = e.errCmd ∧
    (absorbList m bs e).errBusy = e.errBusy ∧ (absorbList m bs e).data = e.data :=
  absorbList_induct (P := fun f => f.acc = e.acc ∧ f.mode = e.mode ∧ f.fin2 = e.fin2 ∧ f.lenf = e.lenf ∧
      f.errCmd = e.errCmd ∧ f.errBusy = e.errBusy ∧ f.data = e.data) m bs e ⟨rfl, rfl, rfl, rfl, rfl, rfl, rfl⟩
    (fun _ _ h => h)
    (fun f x h => by
      simpa [absorbByte_acc, absorbByte_mode, absorbByte_fin2, absorbByte_lenf, absorbByte_errCmd,
        absorbByte_errBusy, absorbByte_data] using h)

/-- Absorbing keeps the canonical form of BUF, from any engine. -/
theorem absorbList_wf {m : LenMode} {bs : List Byte} {e : Engine} (h : Memory.wf e.buf = true) :
    Memory.wf (absorbList m bs e).buf = true :=
  absorbList_induct (P := fun f => Memory.wf f.buf = true) m bs e h (fun _ _ h => h)
    (fun f x h => by rw [absorbByte_buf]; exact Memory.wf_write _ _ h)

/-- One step of ABSORB_LIST while the block has room. -/
theorem absorbList_cons_room {m : LenMode} {x : Byte} {bs : List Byte} {e : Engine} (hs : e.stage = .idle)
    (h : e.cnt < 63) :
    absorbList m (x :: bs) e = absorbList m bs (absorbByte m x (e.withPend [])) := by
  have := (absorbByte_stay (m := m) (x := x) (e := e.withPend []) (by rw [Engine.withPend_cnt]; omega)).1
  rw [absorbList]
  simp [this, hs]

/-- The step of ABSORB_LIST that fills the block: the rest waits. -/
theorem absorbList_cons_fill {m : LenMode} {x : Byte} {bs : List Byte} {e : Engine} (h : e.cnt = 63) :
    absorbList m (x :: bs) e = (absorbByte m x (e.withPend [])).withPend bs := by
  have := (absorbByte_start (m := m) (x := x) (e := e.withPend []) h).1
  rw [absorbList]
  simp [this]

/-- What ABSORB_LIST does from an idle engine with room (R153, R157, R158): of the bytes, the first k fit; they go to BUF, and
BITLEN and CNT count them; the rest waits in PEND; a full block starts. -/
theorem absorbList_spec (m : LenMode) (bs : List Byte) (e : Engine) (hs : e.stage = .idle) (hc : e.cnt ≤ 63) :
    let k := min bs.length (64 - e.cnt)
    let f := absorbList m bs e
    f.buf = Memory.writeBytes e.buf e.cnt (bs.take k) ∧ f.cnt = e.cnt + k ∧
      f.bitlen = e.bitlen + BitVec.ofNat 64 (8 * k) ∧ f.pend = bs.drop k ∧
      (e.cnt + bs.length ≤ 63 → f.stage = .idle ∧ f.wv = e.wv ∧ f.rnd = e.rnd) ∧
      (64 ≤ e.cnt + bs.length → f.stage = .rounds ∧ f.wv = e.acc ∧ f.rnd = 0) := by
  induction bs generalizing e with
  | nil =>
    refine ⟨rfl, rfl, by simp [absorbList], rfl, fun _ => ⟨hs, rfl, rfl⟩, fun h => ?_⟩
    simp only [List.length_nil] at h
    omega
  | cons x bs ih =>
    rcases Nat.lt_or_ge e.cnt 63 with hlt | hge
    · have hcnt : (absorbByte m x (e.withPend [])).cnt = e.cnt + 1 := absorbByte_cnt ..
      have hst := absorbByte_stay (m := m) (x := x) (e := e.withPend []) (by rw [Engine.withPend_cnt]; omega)
      have hbuf : (absorbByte m x (e.withPend [])).buf = Memory.write e.buf e.cnt x := absorbByte_buf ..
      have hbl : (absorbByte m x (e.withPend [])).bitlen = e.bitlen + 8 := absorbByte_bitlen ..
      have hacc : (absorbByte m x (e.withPend [])).acc = e.acc := absorbByte_acc ..
      obtain ⟨h1, h2, h3, h4, h5, h6⟩ :=
        ih (absorbByte m x (e.withPend [])) (hst.1.trans hs) (by omega)
      have hk : min (bs.length + 1) (64 - e.cnt) = min bs.length (64 - (e.cnt + 1)) + 1 := by omega
      simp only [hcnt, hbuf, hbl, hacc, hst.2.1, hst.2.2] at h1 h2 h3 h4 h5 h6
      rw [absorbList_cons_room hs hlt]
      simp only [List.length_cons, hk, List.take_succ_cons, List.drop_succ_cons]
      refine ⟨h1, by omega, ?_, h4, fun h => h5 (by omega), fun h => h6 (by omega)⟩
      rw [h3]
      apply BitVec.eq_of_toNat_eq
      have h8 : (8 : DWord).toNat = 8 := rfl
      simp only [BitVec.toNat_add, BitVec.toNat_ofNat, h8]
      omega
    · have h63 : e.cnt = 63 := by omega
      have hk : min (bs.length + 1) (64 - e.cnt) = 1 := by omega
      have hst := absorbByte_start (m := m) (x := x) (e := e.withPend []) h63
      rw [absorbList_cons_fill h63]
      simp only [List.length_cons, hk, List.take_succ_cons, List.take_zero, List.drop_succ_cons, List.drop_zero]
      refine ⟨absorbByte_buf .., absorbByte_cnt .., absorbByte_bitlen .., rfl, fun h => ?_, fun _ => ⟨hst.1, hst.2.2, hst.2.1⟩⟩
      omega

/-- LEN_OVF after ABSORB_LIST (R153): it is set by the first absorbed byte whose count overflows, and it is sticky. -/
theorem absorbList_lenOvf (m : LenMode) (bs : List Byte) (e : Engine) (hs : e.stage = .idle) (hc : e.cnt ≤ 63) :
    (absorbList m bs e).lenOvf = true ↔ e.lenOvf = true ∨
      ∃ j, 1 ≤ j ∧ j ≤ min bs.length (64 - e.cnt) ∧ (2 ^ 64 ≤ e.bitlen.toNat + 8 * j ∨
        (m = .trunc32 ∧ 2 ^ 32 ≤ (e.bitlen.toNat + 8 * j) % 2 ^ 64)) := by
  have hone (n : Nat) : absorbOverflows m n = true ↔
      2 ^ 64 ≤ n ∨ (m = .trunc32 ∧ 2 ^ 32 ≤ n % 2 ^ 64) := by
    cases m <;> simp [absorbOverflows]
  induction bs generalizing e with
  | nil =>
    have h : (absorbList m [] e).lenOvf = e.lenOvf := rfl
    rw [h]
    refine ⟨.inl, ?_⟩
    rintro (h | ⟨j, hj1, hj2, -⟩)
    · exact h
    · simp only [List.length_nil] at hj2; omega
  | cons x bs ih =>
    have hlo : (absorbByte m x (e.withPend [])).lenOvf = true ↔
        e.lenOvf = true ∨ absorbOverflows m (e.bitlen.toNat + 8) = true := by
      rw [absorbByte_lenOvf]; simp
    rcases Nat.lt_or_ge e.cnt 63 with hlt | hge
    · have hst := absorbByte_stay (m := m) (x := x) (e := e.withPend []) (by rw [Engine.withPend_cnt]; omega)
      have hcnt : (absorbByte m x (e.withPend [])).cnt = e.cnt + 1 := absorbByte_cnt ..
      have hbl : (absorbByte m x (e.withPend [])).bitlen = e.bitlen + 8 := absorbByte_bitlen ..
      have hbn : (e.bitlen + 8).toNat = (e.bitlen.toNat + 8) % 2 ^ 64 := by simp [BitVec.toNat_add]
      have hlt64 := e.bitlen.isLt
      have ih := ih (absorbByte m x (e.withPend [])) (hst.1.trans hs) (by omega)
      rw [absorbList_cons_room hs hlt]
      refine ih.trans ?_
      rw [hlo, hcnt, hbl, hbn, hone, List.length_cons]
      constructor
      · rintro ((h | h) | ⟨j, hj1, hj2, h⟩)
        · exact .inl h
        · exact .inr ⟨1, by omega, by omega, by simpa using h⟩
        · rcases Nat.lt_or_ge (e.bitlen.toNat + 8) (2 ^ 64) with h64 | h64
          · rw [Nat.mod_eq_of_lt h64] at h
            refine .inr ⟨j + 1, by omega, by omega, ?_⟩
            rw [show e.bitlen.toNat + 8 * (j + 1) = e.bitlen.toNat + 8 + 8 * j by omega]
            exact h
          · exact .inr ⟨1, by omega, by omega, .inl (by omega)⟩
      · rintro (h | ⟨j, hj1, hj2, h⟩)
        · exact .inl (.inl h)
        · rcases Nat.lt_or_ge (e.bitlen.toNat + 8) (2 ^ 64) with h64 | h64
          · rcases Nat.lt_or_ge 1 j with hj | hj
            · refine .inr ⟨j - 1, by omega, by omega, ?_⟩
              rw [Nat.mod_eq_of_lt h64, show e.bitlen.toNat + 8 + 8 * (j - 1) = e.bitlen.toNat + 8 * j by omega]
              exact h
            · have : j = 1 := by omega
              subst this
              exact .inl (.inr (by simpa using h))
          · exact .inl (.inr (.inl h64))
    · have h63 : e.cnt = 63 := by omega
      rw [absorbList_cons_fill h63]
      show (absorbByte m x (e.withPend [])).lenOvf = true ↔ _
      rw [hlo, hone, h63, List.length_cons]
      constructor
      · rintro (h | h)
        · exact .inl h
        · exact .inr ⟨1, by omega, by omega, by simpa using h⟩
      · rintro (h | ⟨j, hj1, hj2, h⟩)
        · exact .inl h
        · have : j = 1 := by omega
          subst this
          exact .inr (by simpa using h)

/-- LEN_OVF is sticky while bytes are absorbed (R153), from any engine. -/
theorem absorbList_lenOvf_sticky {m : LenMode} {bs : List Byte} {e : Engine} (h : e.lenOvf = true) :
    (absorbList m bs e).lenOvf = true :=
  absorbList_induct (P := fun f => f.lenOvf = true) m bs e h (fun _ _ h => h)
    (fun f x h => by rw [absorbByte_lenOvf, h, Bool.true_or])

/-- Absorbing from an idle engine, whatever CNT is, leaves it idle with its working variables, or starts a block. -/
theorem absorbList_start_or_stay (m : LenMode) (bs : List Byte) (e : Engine) (hs : e.stage = .idle) :
    ((absorbList m bs e).stage = .idle ∧ (absorbList m bs e).wv = e.wv) ∨
    ((absorbList m bs e).stage = .rounds ∧ (absorbList m bs e).rnd = 0 ∧
      (absorbList m bs e).wv = (absorbList m bs e).acc) := by
  induction bs generalizing e with
  | nil => exact .inl ⟨hs, rfl⟩
  | cons x bs ih =>
    by_cases h : e.cnt = 63
    · rw [absorbList_cons_fill h]
      obtain ⟨h1, h2, h3⟩ := absorbByte_start (m := m) (x := x) (e := e.withPend []) h
      exact .inr ⟨h1, h2, by simp [h3, absorbByte_acc]⟩
    · obtain ⟨h1, -, h3⟩ := absorbByte_stay (m := m) (x := x) (e := e.withPend []) h
      have ih := ih (absorbByte m x (e.withPend [])) (h1.trans hs)
      rw [absorbList]
      simp only [h1, Engine.withPend_stage, hs, ne_eq, not_true, if_false]
      rw [h3] at ih
      exact ih

/-! ### The operand of PUSH and the padding FINAL writes -/

@[simp] theorem dataBytes_length (d : Word) (n : Nat) : (dataBytes d n).length = n := by simp [dataBytes]

theorem dataBytes_getD {d : Word} {n j : Nat} (h : j < n) : (dataBytes d n).getD j 0 = byteOf d j := by
  simp [dataBytes, h]

theorem pushCount_pos (nb : BitVec 2) : 1 ≤ pushCount nb := by simp [pushCount]

theorem pushCount_le (nb : BitVec 2) : pushCount nb ≤ 4 := by
  have := nb.isLt; simp [pushCount]; omega

@[simp] theorem le64_length (v : DWord) : (le64 v).length = 8 := rfl

theorem le64_getD {v : DWord} {j : Nat} (h : j < 8) : (le64 v).getD j 0 = byteOf v j := by
  interval_cases j <;> rfl

/-- FINAL fills the block exactly (R99). -/
theorem finalTail_length {c : Nat} (lenf : DWord) (h : c ≤ 63) : (finalTail c lenf).length = 64 - c := by
  unfold finalTail; split <;> simp <;> omega

theorem secondBlock_length (lenf : DWord) : (secondBlock lenf).length = 64 := by simp [secondBlock]

/-! ### The engine's step -/

/-- The one engine step there is, by STAGE (R159, R160, R161). -/
theorem engineStep_cases {m : LenMode} {e e' : Engine} (h : engineStep? m e = some e') :
    (e.stage = .rounds ∧ e' = engineRound e) ∨ (e.stage = .accum ∧ e' = engineAccum m e) := by
  unfold engineStep? at h
  split at h
  · cases h
  · exact .inl ⟨‹_›, by injection h with h; exact h.symm⟩
  · exact .inr ⟨‹_›, by injection h with h; exact h.symm⟩

theorem engineStep_idle {m : LenMode} {e : Engine} (h : e.stage = .idle) : engineStep? m e = none := by
  simp [engineStep?, h]

theorem engineStep_rounds {m : LenMode} {e : Engine} (h : e.stage = .rounds) :
    engineStep? m e = some (engineRound e) := by
  simp [engineStep?, h]

theorem engineStep_accum {m : LenMode} {e : Engine} (h : e.stage = .accum) :
    engineStep? m e = some (engineAccum m e) := by
  simp [engineStep?, h]

/-- The three ways an accumulation step ends (R160). -/
theorem engineAccum_cases (m : LenMode) (e : Engine) :
    (e.mode = .finalizing ∧ e.fin2 = true ∧ engineAccum m e =
      startBlock { foldBlock e with buf := Memory.writeBytes e.buf 0 (secondBlock e.lenf), fin2 := false }) ∨
    (e.mode = .finalizing ∧ e.fin2 = false ∧ engineAccum m e = { foldBlock e with mode := .done }) ∨
    (e.mode ≠ .finalizing ∧ engineAccum m e = absorbList m e.pend (foldBlock e)) := by
  unfold engineAccum
  by_cases hm : e.mode = .finalizing
  · cases e.fin2
    · exact .inr (.inl ⟨hm, rfl, by simp [hm]⟩)
    · exact .inl ⟨hm, rfl, by simp [hm]⟩
  · refine .inr (.inr ⟨hm, ?_⟩)
    by_cases hp : e.pend = []
    · simp [hm, hp, absorbList, Engine.withPend, foldBlock]
    · simp [hm, hp]

/-- What no case of the accumulation step writes. -/
theorem engineAccum_frame (m : LenMode) (e : Engine) :
    (engineAccum m e).acc = accumulate e.acc e.wv ∧ (engineAccum m e).lenf = e.lenf ∧
    (engineAccum m e).errCmd = e.errCmd ∧ (engineAccum m e).errBusy = e.errBusy ∧ (engineAccum m e).data = e.data := by
  rcases engineAccum_cases m e with ⟨_, _, h⟩ | ⟨_, _, h⟩ | ⟨_, h⟩
  · rw [h]; exact ⟨rfl, rfl, rfl, rfl, rfl⟩
  · rw [h]; exact ⟨rfl, rfl, rfl, rfl, rfl⟩
  · rw [h]
    obtain ⟨h1, -, -, h4, h5, h6, h7⟩ := absorbList_frame m e.pend (foldBlock e)
    exact ⟨h1, h4, h5, h6, h7⟩

/-- Runs of engine steps compose. -/
theorem engineRun_add (m : LenMode) (j k : Nat) (e : Engine) :
    engineRun m (j + k) e = engineRun m k (engineRun m j e) := by
  induction j generalizing e with
  | zero => simp [engineRun]
  | succ j ih =>
    rw [Nat.add_right_comm, engineRun]
    cases h : engineStep? m e with
    | none =>
      have hk : ∀ n, engineRun m n e = e := fun n => by cases n <;> simp [engineRun, h]
      simp [engineRun, h, hk]
    | some e' => simp [engineRun, h, ih]

/-! ### Host temporaries -/

/-- A temporary that is loaded holds the value, and no other changes. -/
theorem tempAt_loadTemp (ts : List (Nat × Word)) (n m : Nat) (x : Word) :
    tempAt (loadTemp ts n x) m = if n = m then some x else tempAt ts m := by
  induction ts with
  | nil => rfl
  | cons c ts ih =>
    obtain ⟨k, y⟩ := c
    unfold loadTemp
    split
    · by_cases hk : k = m
      · subst hk
        simp only [tempAt, if_pos]
        rw [if_neg (by omega)]
      · simp only [tempAt, if_neg hk, ih]
    · split
      · rename_i hk
        subst hk
        by_cases hm : k = m <;> simp [tempAt, hm]
      · rfl

end Sys2Proof.Machine
end

