-- ==== Sys2Proof/Laws/Padding.lean ====
section
/-! SUPPORT. PAD(m) block by block, in the terms the engine writes it in (R99), and the overflow condition as bytes are
absorbed (R97, R153). -/

namespace Sys2Proof.Machine

theorem byteAt_append_left {m n : List Byte} {k : Nat} (h : k < m.length) : byteAt (m ++ n) k = byteAt m k := by
  rw [byteAt, byteAt, List.getD_append _ _ _ _ h]

theorem byteAt_append_right {m n : List Byte} {k : Nat} (h : m.length ≤ k) :
    byteAt (m ++ n) k = n.getD (k - m.length) 0 := by
  rw [byteAt, List.getD_append_right _ _ _ _ h]

theorem replicate_zero_getD (n k : Nat) : (List.replicate n (0 : Byte)).getD k 0 = 0 := by
  rw [List.getD_eq_getElem?_getD, List.getElem?_replicate]
  split <;> rfl

/-- The block count by the bytes of the last block (R95). -/
theorem blockCount_eq (L : Nat) : blockCount L = L / 64 + if L % 64 ≤ 55 then 1 else 2 := by
  unfold blockCount
  split <;> omega

/-- The message is where PAD(m) begins (R92). -/
theorem byteAt_pad_message (lm : LenMode) (m : List Byte) {k : Nat} (h : k < m.length) :
    byteAt (pad lm m) k = byteAt m k := by
  rw [pad, byteAt_append_left h]

/-- The block of PAD(m) in which the message ends is the rest of the message and what FINAL writes after it (R99). -/
theorem byteAt_pad_lastMessageBlock (lm : LenMode) (m : List Byte) {k : Nat} (hk : k < 64) :
    byteAt (pad lm m) (64 * (m.length / 64) + k) =
      if k < m.length % 64 then byteAt m (64 * (m.length / 64) + k)
      else (finalTail (m.length % 64) (lenVal lm m.length)).getD (k - m.length % 64) 0 := by
  have hP : paddedLength m.length = 64 * (m.length / 64 + if m.length % 64 ≤ 55 then 1 else 2) := by
    rw [paddedLength, blockCount_eq]
  by_cases h : k < m.length % 64
  · rw [if_pos h, byteAt_pad_message lm m (by omega)]
  · rw [if_neg h, pad, byteAt_append_right (by omega),
      show 64 * (m.length / 64) + k - m.length = k - m.length % 64 by omega]
    by_cases hc : m.length % 64 ≤ 55
    · rw [if_pos hc] at hP
      rw [finalTail, if_pos hc, show paddedLength m.length - m.length - 9 = 55 - m.length % 64 by omega]
    · rw [if_neg hc] at hP
      rw [finalTail, if_neg hc, show paddedLength m.length - m.length - 9 = 119 - m.length % 64 by omega]
      generalize hj : k - m.length % 64 = j
      cases j with
      | zero => rfl
      | succ j =>
        rw [List.getD_cons_succ, List.getD_cons_succ, List.getD_append _ _ _ _ (by rw [List.length_replicate]; omega),
          replicate_zero_getD, replicate_zero_getD]

/-- Where padding adds two blocks, the last one is 56 zeros and the length field (R99). -/
theorem byteAt_pad_secondBlock (lm : LenMode) (m : List Byte) {k : Nat} (hk : k < 64) (hc : 56 ≤ m.length % 64) :
    byteAt (pad lm m) (64 * (m.length / 64 + 1) + k) = (secondBlock (lenVal lm m.length)).getD k 0 := by
  have hP : paddedLength m.length = 64 * (m.length / 64 + 2) := by
    rw [paddedLength, blockCount_eq, if_neg (by omega)]
  rw [pad, byteAt_append_right (by omega), show paddedLength m.length - m.length - 9 = 119 - m.length % 64 by omega,
    show 64 * (m.length / 64 + 1) + k - m.length = 63 - m.length % 64 + k + 1 by omega, List.getD_cons_succ, secondBlock]
  by_cases h : k < 56
  · rw [List.getD_append _ _ _ _ (by rw [List.length_replicate]; omega),
      List.getD_append _ _ _ _ (by rw [List.length_replicate]; omega), replicate_zero_getD, replicate_zero_getD]
  · rw [List.getD_append_right _ _ _ _ (by rw [List.length_replicate]; omega),
      List.getD_append_right _ _ _ _ (by rw [List.length_replicate]; omega)]
    congr 1
    simp only [List.length_replicate]
    omega

/-- A message of a + k bytes overflows exactly if its first a bytes do or one of the k after them sets LEN_OVF (R97, R153). -/
theorem lengthOverflow_add (lm : LenMode) (a k : Nat) :
    lengthOverflow lm (a + k) = true ↔ lengthOverflow lm a = true ∨
      ∃ j, 1 ≤ j ∧ j ≤ k ∧ (2 ^ 64 ≤ (BitVec.ofNat 64 (8 * a)).toNat + 8 * j ∨
        (lm = .trunc32 ∧ 2 ^ 32 ≤ ((BitVec.ofNat 64 (8 * a)).toNat + 8 * j) % 2 ^ 64)) := by
  simp only [BitVec.toNat_ofNat]
  cases lm with
  | trunc32 =>
    simp only [lengthOverflow, decide_eq_true_eq, true_and]
    constructor
    · intro h
      by_cases h0 : 2 ^ 32 ≤ 8 * a
      · exact .inl h0
      · refine .inr ⟨k, by omega, by omega, ?_⟩
        by_cases h64 : 2 ^ 64 ≤ 8 * a % 2 ^ 64 + 8 * k
        · exact .inl h64
        · exact .inr (by omega)
    · rintro (h | ⟨j, h1, h2, h⟩) <;> omega
  | full64 =>
    simp only [lengthOverflow, decide_eq_true_eq, reduceCtorEq, false_and, or_false]
    constructor
    · intro h
      by_cases h0 : 2 ^ 64 ≤ 8 * a
      · exact .inl h0
      · exact .inr ⟨k, by omega, by omega, by omega⟩
    · rintro (h | ⟨j, h1, h2, h⟩) <;> omega

end Sys2Proof.Machine
end

