-- ==== Sys2Proof/Laws/PerInstr.lean ====
section
/-! SUPPORT. One lemma for each command: its encoding stands in its row of spec/opcode_table.json (R72, R79). -/

namespace Sys2Proof.Laws

/-- The mask of the command's row (R79). -/
def rowMask : Instr → Word
  | .init => 0xFFFFFFFF
  | .push _ => 0xFFFFFFCF
  | .final => 0xFFFFFFFF

/-- The match value of the command's row (R79). -/
def rowMatch : Instr → Word
  | .init => 0x00000001
  | .push _ => 0x00000002
  | .final => 0x00000003

/-- The command is well formed, its reserved field is zero, and its word selects its row. -/
def Encoding.Statement (i : Instr) : Prop :=
  i.wellFormed = true ∧ fieldRsv (encode i) = 0 ∧ encode i &&& rowMask i = rowMatch i

theorem Encoding.init : Encoding.Statement .init := ⟨rfl, by decide, by decide⟩

theorem Encoding.push (nb : BitVec 2) : Encoding.Statement (.push nb) :=
  ⟨rfl, by revert nb; decide, by revert nb; decide⟩

theorem Encoding.final : Encoding.Statement .final := ⟨rfl, by decide, by decide⟩

end Sys2Proof.Laws
end

