-- ==== Sys2Proof/Laws/Step.lean ====
section
/-! SUPPORT. What a step can do, said once: the bus, a command word, and the events of the total order of R59. Later proofs
take `step_event` apart and do not unfold the step. -/

namespace Sys2Proof.Machine

/-! ### The bus (R52) -/

@[simp] theorem regAt_regOffset (r : Reg) : regAt (regOffset r) = some r := by cases r <;> rfl

theorem regOffset_lt (r : Reg) : regOffset r < 32 := by cases r <;> decide

theorem regOffset_of_regAt {off : Nat} {r : Reg} (h : regAt off = some r) : off = regOffset r := by
  unfold regAt at h
  split at h <;> first | (injection h with h; subst h; rfl) | cases h

/-- Which offsets of the window hold a register: the multiples of 4 (R58). -/
theorem regAt_isSome_iff {off : Nat} (h : off < 32) : (∃ r, regAt off = some r) ↔ off % 4 = 0 := by
  constructor
  · rintro ⟨r, hr⟩
    rw [regOffset_of_regAt hr]
    cases r <;> rfl
  · intro h4
    interval_cases off <;> first | (exact ⟨_, rfl⟩) | omega

/-- A 32-bit access to a register of the window reaches it. -/
@[simp] theorem route_regAccess (c : Config) (r : Reg) (k : Reg → Answer) :
    route c (regAccess c.engineBase r) k = k r := by
  have hlt := regOffset_lt r
  have h1 : ¬ (c.engineBase + regOffset r < c.engineBase ∨ c.engineBase + 32 ≤ c.engineBase + regOffset r) := by
    omega
  have h2 : c.engineBase + regOffset r - c.engineBase = regOffset r := by omega
  simp only [route, regAccess, h2, regAt_regOffset]
  rw [if_neg (by decide), if_neg h1, if_neg (by simp)]

/-- What the bus does with an access: no move, BUS_ERR, or the register it is an aligned 32-bit access of. -/
theorem route_cases (c : Config) (a : Access) (k : Reg → Answer) :
    (a.width = .wide ∧ route c a k = .refused .wideAccess) ∨
    (a.width ≠ .wide ∧ ¬ (c.engineBase ≤ a.addr ∧ a.addr < c.engineBase + 32) ∧
      route c a k = .refused .outsideWindow) ∨
    (a.width ≠ .wide ∧ (c.engineBase ≤ a.addr ∧ a.addr < c.engineBase + 32) ∧
      (a.width ≠ .word ∨ (a.addr - c.engineBase) % 4 ≠ 0) ∧
      route c a k = .fault (.busErr (a.addr - c.engineBase))) ∨
    (∃ r, a = regAccess c.engineBase r ∧ route c a k = k r) := by
  obtain ⟨w, addr⟩ := a
  by_cases hw : w = .wide
  · exact .inl ⟨hw, by simp [route, hw]⟩
  · by_cases ho : addr < c.engineBase ∨ c.engineBase + 32 ≤ addr
    · exact .inr (.inl ⟨hw, by dsimp only; omega, by simp [route, hw, ho]⟩)
    · have hin : c.engineBase ≤ addr ∧ addr < c.engineBase + 32 := by omega
      by_cases hword : w = .word
      · subst hword
        cases hr : regAt (addr - c.engineBase) with
        | none =>
          have h4 : (addr - c.engineBase) % 4 ≠ 0 := fun h4 => by
            obtain ⟨r, hr'⟩ := (regAt_isSome_iff (by omega)).mpr h4
            rw [hr] at hr'; cases hr'
          exact .inr (.inr (.inl ⟨hw, hin, .inr h4, by simp [route, ho, hr]⟩))
        | some r =>
          have haddr : addr = c.engineBase + regOffset r := by
            have := regOffset_of_regAt hr; omega
          subst haddr
          exact .inr (.inr (.inr ⟨r, rfl, route_regAccess c r k⟩))
      · exact .inr (.inr (.inl ⟨hw, hin, .inl hword, by simp [route, hw, ho, hword]⟩))

/-- Where the bus lets an access go on, it is an aligned 32-bit access of a register. -/
theorem route_next {c : Config} {a : Access} {k : Reg → Answer} {t : State} (h : route c a k = .next t) :
    ∃ r, a = regAccess c.engineBase r ∧ k r = .next t := by
  rcases route_cases c a k with ⟨-, h'⟩ | ⟨-, -, h'⟩ | ⟨-, -, -, h'⟩ | ⟨r, ha, h'⟩
  · rw [h'] at h; cases h
  · rw [h'] at h; cases h
  · rw [h'] at h; cases h
  · exact ⟨r, ha, by rw [← h', h]⟩

/-! ### A command word (R152) -/

/-- What a word written to CMD can do to the state. -/
inductive CommandEffect (v : Word) (s : State) : State → Prop
  | dropped (hb : s.engine.stage ≠ .idle) : CommandEffect v s (s.withEngine s.engine.setErrBusy)
  | illegal (why : Illegal) (hi : s.engine.stage = .idle) (hd : decode v = .illegal why) :
    CommandEffect v s (s.withEngine s.engine.setErrCmd)
  | afterDone (i : Instr) (hi : s.engine.stage = .idle) (hd : decode v = .command i) (hn : i ≠ .init)
    (hm : s.engine.mode = .done) : CommandEffect v s (s.withEngine s.engine.setErrCmd)
  | init (hi : s.engine.stage = .idle) (hd : decode v = .command .init) :
    CommandEffect v s (s.withEngine (initCommand s.engine))
  | push (nb : BitVec 2) (hi : s.engine.stage = .idle) (hd : decode v = .command (.push nb))
    (hm : s.engine.mode ≠ .done) (hc : s.engine.cnt < 64) :
    CommandEffect v s (s.withEngine (pushCommand s.config.lenMode nb s.engine))
  | final (hi : s.engine.stage = .idle) (hd : decode v = .command .final)
    (hm : s.engine.mode ≠ .done) (hc : s.engine.cnt < 64) :
    CommandEffect v s (s.withEngine (finalCommand s.config.lenMode s.engine))

theorem command_effect {v : Word} {s t : State} (h : command v s = .next t) : CommandEffect v s t := by
  unfold command at h
  by_cases hb : s.engine.stage = .idle
  · cases hd : decode v with
    | illegal why =>
      rw [hd] at h
      simp only [rejectIllegal, unlessBusy_idle _ hb, Host.Outcome.next.injEq] at h
      exact h ▸ .illegal why hb hd
    | command i =>
      rw [hd] at h
      cases i with
      | init =>
        simp only [exec, execInit, unlessBusy_idle _ hb, Host.Outcome.next.injEq] at h
        exact h ▸ .init hb hd
      | push nb =>
        simp only [exec, execPush, unlessBusy_idle _ hb] at h
        by_cases hm : s.engine.mode = .done
        · rw [unlessDone_done _ hm, Host.Outcome.next.injEq] at h
          exact h ▸ .afterDone _ hb hd (by simp) hm
        · rw [unlessDone_open _ hm] at h
          by_cases hc : s.engine.cnt < 64
          · rw [requireRoom_room _ hc, Host.Outcome.next.injEq] at h
            exact h ▸ .push nb hb hd hm hc
          · rw [requireRoom_full _ (by omega)] at h; cases h
      | final =>
        simp only [exec, execFinal, unlessBusy_idle _ hb] at h
        by_cases hm : s.engine.mode = .done
        · rw [unlessDone_done _ hm, Host.Outcome.next.injEq] at h
          exact h ▸ .afterDone _ hb hd (by simp) hm
        · rw [unlessDone_open _ hm] at h
          by_cases hc : s.engine.cnt < 64
          · rw [requireRoom_room _ hc, Host.Outcome.next.injEq] at h
            exact h ▸ .final hb hd hm hc
          · rw [requireRoom_full _ (by omega)] at h; cases h
  · have hdrop : Host.Outcome.next (s.withEngine s.engine.setErrBusy) = (.next t : Answer) := by
      rw [← h]
      cases decode v with
      | illegal why => exact (unlessBusy_busy _ hb).symm
      | command i => cases i <;> exact (unlessBusy_busy _ hb).symm
    rw [Host.Outcome.next.injEq] at hdrop
    exact hdrop ▸ .dropped hb

/-! ### The events (R59) -/

/-- What one event can do. `u` is the state with the turn used up. -/
inductive Event (s : State) : State → Prop
  /-- The reset event (R210). -/
  | reset (ht : nextTurn s = .reset) : Event s ((s.withTurns s.turns.tail).withEngine Engine.reset)
  /-- An engine turn that finds no step (R161.1). -/
  | engineIdle (ht : nextTurn s = .engine) (hi : s.engine.stage = .idle) : Event s (s.withTurns s.turns.tail)
  /-- ROUND (R159). -/
  | round (ht : nextTurn s = .engine) (hs : s.engine.stage = .rounds) :
    Event s ((s.withTurns s.turns.tail).withEngine (engineRound s.engine))
  /-- ACCUM (R160). -/
  | accum (ht : nextTurn s = .engine) (hs : s.engine.stage = .accum) :
    Event s ((s.withTurns s.turns.tail).withEngine (engineAccum s.config.lenMode s.engine))
  /-- A host turn with no statement left. -/
  | hostIdle (ht : nextTurn s = .host) (hp : s.prog = []) : Event s (s.withTurns s.turns.tail)
  /-- A read (R150). -/
  | read (r : Reg) (n : Nat) (p : List HostOp) (ht : nextTurn s = .host)
    (hp : s.prog = .read (regAccess s.config.engineBase r) n :: p) :
    Event s (((s.withTurns s.turns.tail).withProg p).withTemps
      (loadTemp s.temps n (regRead s.config s.engine r)))
  /-- A poll that sees its value (R77). -/
  | pollHit (r : Reg) (mask val : Word) (p : List HostOp) (ht : nextTurn s = .host)
    (hp : s.prog = .poll (regAccess s.config.engineBase r) mask val :: p)
    (hv : regRead s.config s.engine r &&& mask = val) : Event s ((s.withTurns s.turns.tail).withProg p)
  /-- A poll that does not (R77). -/
  | pollMiss (r : Reg) (mask val : Word) (p : List HostOp) (ht : nextTurn s = .host)
    (hp : s.prog = .poll (regAccess s.config.engineBase r) mask val :: p)
    (hv : regRead s.config s.engine r &&& mask ≠ val) : Event s (s.withTurns s.turns.tail)
  /-- A write to DATA (R151). -/
  | writeData (v : Word) (p : List HostOp) (ht : nextTurn s = .host)
    (hp : s.prog = .write (regAccess s.config.engineBase .data) v :: p) :
    Event s (((s.withTurns s.turns.tail).withProg p).withEngine (s.engine.withData v))
  /-- A write to a read-only register (R151). -/
  | writeIgnored (r : Reg) (v : Word) (p : List HostOp) (ht : nextTurn s = .host) (hc : r ≠ .cmd) (hd : r ≠ .data)
    (hp : s.prog = .write (regAccess s.config.engineBase r) v :: p) :
    Event s ((s.withTurns s.turns.tail).withProg p)
  /-- A write to CMD (R152). -/
  | command (v : Word) (p : List HostOp) (t : State) (ht : nextTurn s = .host)
    (hp : s.prog = .write (regAccess s.config.engineBase .cmd) v :: p)
    (he : CommandEffect v ((s.withTurns s.turns.tail).withProg p) t) : Event s t

/-- Every step that answers a next state is one of these events. -/
theorem step_event {s t : State} (h : step s = .next t) : Event s t := by
  unfold step advance at h
  cases ht : nextTurn s with
  | reset =>
    rw [ht] at h
    simp only [takeTurn, resetTurn, Host.Outcome.next.injEq] at h
    exact h ▸ .reset ht
  | engine =>
    rw [ht] at h
    simp only [takeTurn, engineTurn, State.withTurns_config, State.withTurns_engine] at h
    cases hs : s.engine.stage with
    | idle =>
      rw [engineStep_idle hs] at h
      simp only [Host.Outcome.next.injEq] at h
      exact h ▸ .engineIdle ht hs
    | rounds =>
      rw [engineStep_rounds hs] at h
      simp only [Host.Outcome.next.injEq] at h
      exact h ▸ .round ht hs
    | accum =>
      rw [engineStep_accum hs] at h
      simp only [Host.Outcome.next.injEq] at h
      exact h ▸ .accum ht hs
  | host =>
    rw [ht] at h
    simp only [takeTurn, hostTurn, State.withTurns_prog] at h
    cases hp : s.prog with
    | nil =>
      rw [hp] at h
      simp only [Host.Outcome.next.injEq] at h
      exact h ▸ .hostIdle ht hp
    | cons op p =>
      rw [hp] at h
      cases op with
      | read a n =>
        obtain ⟨r, rfl, hk⟩ := route_next h
        simp only [Host.Outcome.next.injEq] at hk
        exact hk ▸ .read r n p ht hp
      | poll a mask val =>
        obtain ⟨r, rfl, hk⟩ := route_next h
        by_cases hv : regRead (s.withTurns s.turns.tail).config (s.withTurns s.turns.tail).engine r &&& mask = val
        · rw [if_pos hv, Host.Outcome.next.injEq] at hk
          exact hk ▸ .pollHit r mask val p ht hp hv
        · rw [if_neg hv, Host.Outcome.next.injEq] at hk
          exact hk ▸ .pollMiss r mask val p ht hp hv
      | write a v =>
        obtain ⟨r, rfl, hk⟩ := route_next h
        cases r with
        | cmd => exact .command v p t ht hp (command_effect hk)
        | data =>
          simp only [regWrite, Host.Outcome.next.injEq] at hk
          exact hk ▸ .writeData v p ht hp
        | status | cfg | digest0 | digest1 | digest2 | digest3 =>
          simp only [regWrite, Host.Outcome.next.injEq] at hk
          exact hk ▸ .writeIgnored _ v p ht (by simp) (by simp) hp

/-! ### The events, forwards -/

theorem step_reset {s : State} (ht : nextTurn s = .reset) :
    step s = .next ((s.withTurns s.turns.tail).withEngine Engine.reset) := by
  rw [step, advance, ht]; rfl

theorem step_engine {s : State} (ht : nextTurn s = .engine) :
    step s = engineTurn (s.withTurns s.turns.tail) := by
  rw [step, advance, ht]; rfl

theorem step_host {s : State} (ht : nextTurn s = .host) : step s = hostTurn (s.withTurns s.turns.tail) := by
  rw [step, advance, ht]; rfl

theorem step_read {s : State} {r : Reg} {n : Nat} {p : List HostOp}
    (h : HostMoves s (.read (regAccess s.config.engineBase r) n) p) :
    step s = .next (((s.withTurns s.turns.tail).withProg p).withTemps
      (loadTemp s.temps n (regRead s.config s.engine r))) := by
  rw [step_host h.1, hostTurn, State.withTurns_prog, h.2]
  exact route_regAccess s.config r _

theorem step_write {s : State} {r : Reg} {v : Word} {p : List HostOp}
    (h : HostMoves s (.write (regAccess s.config.engineBase r) v) p) :
    step s = regWrite r v ((s.withTurns s.turns.tail).withProg p) := by
  rw [step_host h.1, hostTurn, State.withTurns_prog, h.2]
  exact route_regAccess s.config r _

theorem step_poll {s : State} {r : Reg} {mask val : Word} {p : List HostOp}
    (h : HostMoves s (.poll (regAccess s.config.engineBase r) mask val) p) :
    step s = if regRead s.config s.engine r &&& mask = val then .next ((s.withTurns s.turns.tail).withProg p)
      else .next (s.withTurns s.turns.tail) := by
  rw [step_host h.1, hostTurn, State.withTurns_prog, h.2]
  exact route_regAccess s.config r _

/-- A word is offered to CMD exactly by a host turn whose statement writes it there. -/
theorem commandOffered_eq_some {s : State} {v : Word} :
    commandOffered s = some v ↔ ∃ p, HostMoves s (.write (regAccess s.config.engineBase .cmd) v) p := by
  unfold commandOffered HostMoves
  constructor
  · intro h
    split at h
    · rename_i a w p ht hp
      split at h
      · rename_i ha
        obtain ⟨wd, ad⟩ := a
        obtain ⟨h1, h2⟩ := ha
        dsimp only at h1 h2
        subst h1 h2
        injection h with h
        subst h
        exact ⟨p, ht, hp⟩
      · cases h
    · cases h
  · rintro ⟨p, ht, hp⟩
    rw [ht, hp]
    simp [regAccess]

/-- A word that decodes to a command is accepted while idle, and after DONE only if it is INIT (R152). -/
theorem commandAccepted_eq_some {s : State} {v : Word} {i : Instr} (ho : commandOffered s = some v)
    (hs : s.engine.stage = .idle) (hd : decode v = .command i) (hm : i = .init ∨ s.engine.mode ≠ .done) :
    commandAccepted s = some i := by
  have hn : ¬ (s.engine.isDone = true ∧ i ≠ .init) := by
    rintro ⟨h1, h2⟩
    exact hm.elim h2 fun h => h ((Engine.isDone_eq_true _).mp h1)
  have hb : s.engine.busy = false := (Engine.busy_eq_false _).mpr hs
  simp only [commandAccepted, ho, hb, hd, if_neg hn, Bool.false_eq_true, if_false]

/-- No word is offered, so none is accepted, by an event that is not a host's. -/
theorem commandOffered_eq_none {s : State} (h : nextTurn s ≠ .host) : commandOffered s = none := by
  cases ho : commandOffered s with
  | none => rfl
  | some v =>
    obtain ⟨p, hp⟩ := commandOffered_eq_some.mp ho
    exact absurd hp.1 h

theorem commandAccepted_eq_none {s : State} (h : commandOffered s = none) : commandAccepted s = none := by
  simp only [commandAccepted, h]

/-- Loading a temporary keeps the rising order. -/
theorem tempsWfFrom_loadTemp {lo n : Nat} {ts : List (Nat × Word)} (x : Word) (hl : lo ≤ n)
    (h : tempsWfFrom lo ts = true) : tempsWfFrom lo (loadTemp ts n x) = true := by
  induction ts generalizing lo with
  | nil => simp [loadTemp, tempsWfFrom, hl]
  | cons c ts ih =>
    obtain ⟨k, y⟩ := c
    simp only [tempsWfFrom, Bool.and_eq_true, decide_eq_true_eq] at h
    unfold loadTemp
    split
    · simp only [tempsWfFrom, Bool.and_eq_true, decide_eq_true_eq]
      exact ⟨h.1, ih (by omega) h.2⟩
    · split
      · subst_vars
        simp only [tempsWfFrom, Bool.and_eq_true, decide_eq_true_eq]
        exact ⟨hl, h.2⟩
      · simp only [tempsWfFrom, Bool.and_eq_true, decide_eq_true_eq]
        exact ⟨hl, by omega, h.2⟩

end Sys2Proof.Machine
end

