-- ==== Sys2Proof/Tests/Slice0.lean ====
section
/-! SUPPORT. Tests and witnesses. Every expected value of a test comes from the vectors of spec/95_test_vectors.md (named by their
id) or is written out from the encoding tables of spec/30_encoding.md. A `witness_` theorem shows concrete data that
meets all hypotheses of the obligation it names, clause by clause at the ends of its ranges. -/

namespace Sys2Proof.Tests

open Sys2Proof Sys2Proof.Machine

/-! ### Small states -/

/-- An engine that has absorbed c bytes of zeros, none of them in a compressed block, and is idle. -/
def engineAt (c : Nat) : Engine := { Engine.reset with cnt := c, bitlen := BitVec.ofNat 64 (8 * c) }

/-- The machine with that engine. -/
def idleAt (c : Nat) : State := { State.reset with engine := engineAt c }

/-- The machine whose digest is complete. -/
def doneState : State := { State.reset with engine := { Engine.reset with mode := .done } }

/-- The machine with a full block that compresses: round r is due. -/
def roundsAt (r : Fin 64) : State :=
  { State.reset with engine := { engineAt 64 with stage := .rounds, rnd := r } }

/-- The machine with the accumulation step due, in the given mode. -/
def accumIn (m : Mode) (fin2 : Bool) (pend : List Byte) : State :=
  { State.reset with engine := { engineAt 64 with stage := .accum, rnd := 63, mode := m, fin2 := fin2, pend := pend } }

/-- The same state, with the given turn next. -/
def withTurn (t : Turn) (s : State) : State := { s with turns := [t] }

/-- The same state, with the given host statement next, and its turn. -/
def withOp (op : HostOp) (s : State) : State := { s with prog := [op], turns := [.host] }

/-- The same state, with the word v about to be written to CMD. -/
def offering (v : Word) (s : State) : State := withOp (.write (regAccess s.config.engineBase .cmd) v) s

/-- The same state, with the window at address 32. -/
def at32 (s : State) : State := { s with config := { s.config with engineBase := 32 } }

/-- What a check asks of the state after a step; false where the step stops. -/
def after (a : Answer) (p : State → Bool) : Bool :=
  match a with
  | .next t => p t
  | .fault _ => false
  | .refused _ => false

/-! ### WellFormed -/

theorem test_wf_commands : Instr.wellFormed .init = true ∧ (∀ nb, Instr.wellFormed (.push nb) = true) ∧
    Instr.wellFormed .final = true := by decide

/-- `ENGINE_BASE` must be a multiple of 32 (R58). -/
theorem test_wf_refuses_unaligned_base : Config.wellFormed ⟨.trunc32, 33⟩ = false ∧
    Config.wellFormed ⟨.trunc32, 16⟩ = false ∧ Config.wellFormed ⟨.full64, 64⟩ = true := by decide

/-- `push n` has n = 1..4 (R78). -/
theorem test_wf_refuses_push_count : Pseudo.wellFormed (.push 0) = false ∧ Pseudo.wellFormed (.push 5) = false ∧
    Pseudo.wellFormed (.push 1) = true ∧ Pseudo.wellFormed (.push 4) = true := by decide

theorem test_wf_refuses_pushn_count : Pseudo.wellFormed (.pushn 0x61 0) = false ∧
    Pseudo.wellFormed (.pushn 0x61 5) = false ∧ Pseudo.wellFormed (.pushn 0x61 4) = true := by decide

/-! ### Decode: the words of R72, bit by bit (RSV 26 bits, NB 2 bits, OPC 4 bits), and the vectors DV of §2.2 -/

/-- DV-2. -/
theorem test_decode_init : decode 0b00000000000000000000000000_00_0001 = .command .init := by decide

/-- DV-3, DV-11, DV-13 and the word 0x12 of R72. -/
theorem test_decode_push :
    decode 0b00000000000000000000000000_00_0010 = .command (.push 0) ∧
    decode 0b00000000000000000000000000_01_0010 = .command (.push 1) ∧
    decode 0b00000000000000000000000000_10_0010 = .command (.push 2) ∧
    decode 0b00000000000000000000000000_11_0010 = .command (.push 3) := by decide

/-- DV-4. -/
theorem test_decode_final : decode 0b00000000000000000000000000_00_0011 = .command .final := by decide

/-- DV-1, DV-12, DV-14, DV-15, DV-20, DV-21 and DV-22. -/
theorem test_decode_illegal :
    decode 0x00000000 = .illegal .opcode ∧ decode 0x00000023 = .illegal .nbNotZero ∧
    decode 0x00000033 = .illegal .nbNotZero ∧ decode 0x00000031 = .illegal .nbNotZero ∧
    decode 0x00000102 = .illegal .reservedBits ∧ decode 0x80000001 = .illegal .reservedBits ∧
    decode 0xffffffff = .illegal .reservedBits := by decide

/-- The byte counts of R73. -/
theorem test_push_counts : pushCount 0 = 1 ∧ pushCount 1 = 2 ∧ pushCount 2 = 3 ∧ pushCount 3 = 4 := by decide

/-- The rows of the opcode table, with NB = 0. -/
theorem test_decode_table : decodeTableWord 32 0x00000001 = some .init ∧ decodeTableWord 32 0x00000002 = some (.push 0) ∧
    decodeTableWord 32 0x00000003 = some .final ∧ decodeTableWord 32 0x00000000 = none := by decide

/-! ### The pure functions -/

/-- RV-a to RV-h. -/
theorem test_rotl : rotl32 0x80000000 7 = 0x00000040 ∧ rotl32 0x00000001 22 = 0x00400000 ∧
    rotl32 0x12345678 4 = 0x23456781 ∧ rotl32 0x12345678 23 = 0x3c091a2b ∧ rotl32 0xdeadbeef 12 = 0xdbeefdea ∧
    rotl32 0xffffffff 21 = 0xffffffff ∧ rotl32 0x00000000 17 = 0x00000000 ∧ rotl32 0x89abcdef 16 = 0xcdef89ab := by
  decide

/-- FV-5 and FV-6. -/
theorem test_mixing :
    mixF 0xf0f0f0f0 0xcccccccc 0xaaaaaaaa = 0xcacacaca ∧ mixG 0xf0f0f0f0 0xcccccccc 0xaaaaaaaa = 0xe4e4e4e4 ∧
    mixH 0xf0f0f0f0 0xcccccccc 0xaaaaaaaa = 0x96969696 ∧ mixI 0xf0f0f0f0 0xcccccccc 0xaaaaaaaa = 0x39393939 ∧
    mixF 0x12345678 0x9abcdef0 0x0f1e2d3c = 0x1f3e7f74 ∧ mixG 0x12345678 0x9abcdef0 0x0f1e2d3c = 0x92b4d6f8 ∧
    mixH 0x12345678 0x9abcdef0 0x0f1e2d3c = 0x8796a5b4 ∧ mixI 0x12345678 0x9abcdef0 0x0f1e2d3c = 0x6849080b := by
  decide

/-- RD-1 to RD-4: the first round of each function, from IV. -/
theorem test_rounds_from_iv :
    round 0 iv (fun _ => 0x80636261) = ⟨0x10325476, 0xd6d117b4, 0xefcdab89, 0x98badcfe⟩ ∧
    round 16 iv (fun _ => 0) = ⟨0x10325476, 0xad47c905, 0xefcdab89, 0x98badcfe⟩ ∧
    round 32 iv (fun _ => 0) = ⟨0x10325476, 0xd8159fd5, 0xefcdab89, 0x98badcfe⟩ ∧
    round 48 iv (fun _ => 0) = ⟨0x10325476, 0xa93cdabd, 0xefcdab89, 0x98badcfe⟩ := by decide

/-- RD-5 and RD-6; the message word is the one of index g. -/
theorem test_rounds_corners :
    round 63 ⟨0xffffffff, 0xffffffff, 0xffffffff, 0xffffffff⟩ (fun j => if j = 9 then 0xffffffff else 0) =
      ⟨0xffffffff, 0x71fd70d9, 0xffffffff, 0xffffffff⟩ ∧
    round 5 ⟨0, 0, 0, 0⟩ (fun j => if j = 5 then 0 else 0xffffffff) = ⟨0, 0x7c62a478, 0, 0⟩ := by decide

/-- One column of R120 for each function, with its K of R34. -/
theorem test_schedule :
    (gsel 13 = 13 ∧ rAt 13 = 12 ∧ kAt 13 = 0xfd987193) ∧ (gsel 27 = 8 ∧ rAt 27 = 20 ∧ kAt 27 = 0x455a14ed) ∧
    (gsel 46 = 15 ∧ rAt 46 = 16 ∧ kAt 46 = 0x1fa27cf8) ∧ (gsel 61 = 11 ∧ rAt 61 = 10 ∧ kAt 61 = 0xbd3af235) := by
  decide

/-- ACV-1. -/
theorem test_accumulate : accumulate ⟨0xffffffff, 0x80000000, 0x00000001, 0x00000000⟩
    ⟨0x00000001, 0x80000000, 0xffffffff, 0x00000000⟩ = ⟨0, 0, 0, 0⟩ := by decide

/-- SV-1. -/
theorem test_serialize : serialize ⟨0xd98c1dd4, 0x04b2008f, 0x980980e9, 0x7e42f8ec⟩ =
    [0xd4, 0x1d, 0x8c, 0xd9, 0x8f, 0x00, 0xb2, 0x04, 0xe9, 0x80, 0x09, 0x98, 0xec, 0xf8, 0x42, 0x7e] := by decide

/-- PB-2. -/
theorem test_pad_abc : pad .trunc32 [0x61, 0x62, 0x63] =
    [0x61, 0x62, 0x63, 0x80] ++ List.replicate 52 0x00 ++ [0x18, 0, 0, 0, 0, 0, 0, 0] := by decide

/-- The padded lengths of PV-6, PV-7, PV-9 and PV-10, and the length fields of PV-18. -/
theorem test_padded_lengths : paddedLength 55 = 64 ∧ paddedLength 56 = 128 ∧ paddedLength 63 = 128 ∧ paddedLength 64 = 128 ∧
    lenVal .trunc32 536870913 = 0x8 ∧ lenVal .full64 536870913 = 0x100000008 ∧
    lengthOverflow .trunc32 536870912 = true ∧ lengthOverflow .trunc32 536870911 = false := by decide

/-- KAT-1, the source's own example. -/
theorem test_digest_empty : digestFn .trunc32 [] =
    [0xd4, 0x1d, 0x8c, 0xd9, 0x8f, 0x00, 0xb2, 0x04, 0xe9, 0x80, 0x09, 0x98, 0xec, 0xf8, 0x42, 0x7e] := by
  decide +kernel

/-- KAT-2, the source's own example. -/
theorem test_digest_abc : digestState .trunc32 [0x61, 0x62, 0x63] =
    ⟨0x98500190, 0xb04fd23c, 0x7d3f96d6, 0x727fe128⟩ := by decide +kernel

/-- MB-2: two blocks of padding. -/
theorem test_digest_two_blocks : digestState .trunc32 (List.replicate 56 0x61) =
    ⟨0xc78a0c3b, 0xb028f803, 0x70196c4c, 0x1872d106⟩ := by decide +kernel

/-! ### The commands, one step each -/

/-- The first step after reset with a row's word placed for the fetch runs that command: HV-5 (FINAL) and the DONE bit's absence. -/
theorem test_fetch_final : after (step (State.reset.withFetchWord 32 0x00000003)) (fun t =>
    t.engine.status = 0x1 ∧ t.engine.mode = .finalizing ∧ t.engine.buf = [(0, 0x80)] ∧ t.engine.lenf = 0) = true := by
  decide

/-- HV-9: INIT after a completed computation. -/
theorem test_init_after_done : after (step (offering 0x1 doneState)) (fun t =>
    t.engine.status = 0x0 ∧ t.engine.acc = iv ∧ t.engine.cnt = 0 ∧ t.engine.bitlen = 0) = true := by decide

/-- HV-11b: INIT while a block compresses is dropped. -/
theorem test_init_dropped : after (step (offering 0x1 (roundsAt 0))) (fun t =>
    t.engine.status = 0x9 ∧ t.engine.bitlen = 512) = true := by decide

/-- HV-2: DATA bits above the count are ignored. -/
theorem test_push_two : after (exec (.push 1) { State.reset with engine := { Engine.reset with data := 0xffff6261 } })
    (fun t => t.engine.buf = [(0, 0x61), (1, 0x62)] ∧ t.engine.cnt = 2 ∧ t.engine.bitlen = 16 ∧
      t.engine.status = 0x0) = true := by decide

/-- HV-4, its last PUSH: the block fills at the third byte and the fourth waits. -/
theorem test_push_fills : after (exec (.push 3) { State.reset with engine := { engineAt 61 with data := 0x44434241 } })
    (fun t => t.engine.buf = [(61, 0x41), (62, 0x42), (63, 0x43)] ∧ t.engine.cnt = 64 ∧ t.engine.pend = [0x44] ∧
      t.engine.bitlen = 512 ∧ t.engine.status = 0x1) = true := by decide

/-- HV-14a and HV-14c: the last byte overflows the length field under TRUNC32 only. -/
theorem test_push_overflow :
    let e := { engineAt 62 with bitlen := 0xfffffff0, data := 0x0000bbaa }
    (pushCommand .trunc32 1 e).status = 0x11 ∧ (pushCommand .full64 1 e).status = 0x1 := by decide

/-- HV-14d: the 64-bit counter carries out. -/
theorem test_counter_carries_out :
    let e := pushCommand .full64 0 { engineAt 63 with bitlen := 0xfffffffffffffff8, data := 0xaa }
    e.bitlen = 0 ∧ e.status = 0x11 := by decide

/-- R191 and D11, as log entry 21 reads them: three bytes are narrower than 32 bits. -/
theorem test_three_byte_access : step (withOp (.read ⟨.three, 0x04⟩ 0) State.reset) = .fault (.busErr 4) := rfl

/-- HV-6 and HV-7: where the marker and the length go at c = 56 and at c = 55, over a block of zeros. -/
theorem test_final_tail :
    (finalCommand .trunc32 (engineAt 56)).buf = [(56, 0x80)] ∧ (finalCommand .trunc32 (engineAt 56)).fin2 = true ∧
    (finalCommand .trunc32 (engineAt 55)).buf = [(55, 0x80), (56, 0xb8), (57, 0x01)] ∧
    (finalCommand .trunc32 (engineAt 55)).fin2 = false := by decide

/-- HV-10: PUSH and FINAL after DONE. -/
theorem test_commands_after_done : after (step (offering 0x2 doneState)) (fun t => t.engine.status = 0x6) = true ∧
    after (step (offering 0x3 doneState)) (fun t => t.engine.status = 0x6) = true := by decide

/-- HV-8, for DV-1 and DV-22. -/
theorem test_illegal_words : after (step (offering 0x0 State.reset)) (fun t => t.engine.status = 0x4) = true ∧
    after (step (offering 0xffffffff State.reset)) (fun t => t.engine.status = 0x4) = true := by decide

/-! ### The bus and the other events, one step each -/

/-- HV-12: the reads after reset, and DATA written and read. -/
theorem test_reads_after_reset : observe State.reset = [0, 0, 0, 0, 0, 0, 0, 0] ∧
    after (step (withOp (.write (regAccess 0 .data) 0xdeadbeef) State.reset)) (fun t =>
      regRead t.config t.engine .data = 0xdeadbeef) = true := by decide

/-- HV-12: a write to a read-only register changes nothing. -/
theorem test_write_read_only : after (step (withOp (.write (regAccess 0 .status) 0xffffffff) State.reset)) (fun t =>
    t.engine = Engine.reset) = true := by decide

/-- HV-13: the three faulting accesses. -/
theorem test_bus_errors :
    step (withOp (.read ⟨.byte, 0x05⟩ 0) State.reset) = .fault (.busErr 5) ∧
    step (withOp (.write ⟨.half, 0x00⟩ 0x1) State.reset) = .fault (.busErr 0) ∧
    step (withOp (.read ⟨.word, 0x06⟩ 0) State.reset) = .fault (.busErr 6) := ⟨rfl, rfl, rfl⟩

/-- HV-15, the reset: the computation in progress is gone. -/
theorem test_reset_event : after (step (withTurn .reset (roundsAt 9))) (fun t =>
    t.engine.status = 0x0 ∧ t.engine.cnt = 0 ∧ t.engine.bitlen = 0) = true := by decide

/-- RD-1 as an engine step. -/
theorem test_round_step : after (step { State.reset with engine := { Engine.reset with
      stage := .rounds, wv := iv, buf := [(0, 0x61), (1, 0x62), (2, 0x63), (3, 0x80)] } }) (fun t =>
    t.engine.wv = ⟨0x10325476, 0xd6d117b4, 0xefcdab89, 0x98badcfe⟩ ∧ t.engine.rnd = 1) = true := by decide

/-- ACV-2 as an engine step: KAT-1 is complete. -/
theorem test_accum_step : after (step { State.reset with engine := { Engine.reset with
      stage := .accum, mode := .finalizing, wv := ⟨0x7246fad3, 0x14e45506, 0xff4ea3eb, 0x6e10a476⟩ } }) (fun t =>
    t.engine.acc = ⟨0xd98c1dd4, 0x04b2008f, 0x980980e9, 0x7e42f8ec⟩ ∧ t.engine.status = 0x2) = true := by decide

/-- HV-5 whole: FINAL on the empty message and 65 engine steps. -/
theorem test_final_empty : (engineRun .trunc32 65 (finalCommand .trunc32 Engine.reset)).status = 0x2 ∧
    (engineRun .trunc32 65 (finalCommand .trunc32 Engine.reset)).acc =
      ⟨0xd98c1dd4, 0x04b2008f, 0x980980e9, 0x7e42f8ec⟩ := by decide +kernel

/-- The transaction list of the first pseudo-instructions of P1 and of P2's last `pushn`. -/
theorem test_assemble : (expandPseudo .init ++ expandPseudo (.pushn 0x00007a79 2)).map (assembleStmt 0) =
    [.write ⟨.word, 0x00⟩ 0x00000001, .write ⟨.word, 0x08⟩ 0x00007a79, .write ⟨.word, 0x00⟩ 0x00000012,
      .poll ⟨.word, 0x04⟩ 0x1 0x0] := by decide

/-! ### Witnesses: the states they use -/

/-- The invariant holds of an idle computation with c ≤ 63 bytes. -/
theorem inv_idleAt {c : Nat} (h : c ≤ 63) : Inv (idleAt c) := by
  refine ⟨⟨rfl, ?_, ?_, ?_, ?_, ?_, ?_, ?_, ?_, ?_, ?_⟩, rfl, rfl⟩ <;>
    simp [idleAt, engineAt, State.reset, Engine.reset] <;> omega

/-- The invariant holds while a full block compresses. -/
theorem inv_roundsAt (r : Fin 64) : Inv (roundsAt r) := by
  refine ⟨⟨rfl, ?_, ?_, ?_, ?_, ?_, ?_, ?_, ?_, ?_, ?_⟩, rfl, rfl⟩ <;>
    simp [roundsAt, engineAt, State.reset, Engine.reset]

/-- The computation that has absorbed one byte, 0x61. -/
def oneByte : State :=
  { State.reset with engine := { Engine.reset with buf := [(0, 0x61)], cnt := 1, bitlen := 8 } }

theorem inv_oneByte : Inv oneByte :=
  ⟨⟨rfl, by decide, by decide, fun _ => by decide, nofun, nofun, fun h => absurd rfl h, nofun, fun h => absurd rfl h,
    fun _ => ⟨rfl, rfl⟩, nofun⟩, rfl, rfl⟩

theorem tracks_oneByte : Tracks .trunc32 [0x61] oneByte.engine :=
  ⟨by decide, rfl, rfl, rfl, ⟨rfl, rfl, by decide⟩, trivial⟩

/-! ### Witnesses: reset and command words -/

theorem witness_ResetEventOverridesEverything :
    nextTurn (withTurn .reset (roundsAt 9)) = .reset ∧ nextTurn (withTurn .reset doneState) = .reset := by decide

theorem witness_ResetEqualsAcceptedInit : ∃ s r i : State,
    nextTurn s = .reset ∧ step s = .next r ∧ s.engine.stage = .idle ∧ exec .init s = .next i :=
  ⟨withTurn .reset (idleAt 63), _, _, rfl, rfl, rfl, rfl⟩

theorem witness_StepExecutesOfferedCommand :
    (commandOffered (offering 0x1 State.reset) = some 0x1 ∧ decode 0x1 = .command .init) ∧
    (commandOffered (offering 0x32 (at32 State.reset)) = some 0x32 ∧ decode 0x32 = .command (.push 3)) ∧
    (commandOffered (offering 0x3 doneState) = some 0x3 ∧ decode 0x3 = .command .final) := by decide

theorem witness_BusyEngineDropsEveryWord :
    (commandOffered (offering 0x3 (roundsAt 0)) = some 0x3 ∧ (offering 0x3 (roundsAt 0)).engine.stage ≠ .idle) ∧
    (commandOffered (offering 0xffffffff (accumIn .absorb false [])) = some 0xffffffff ∧
      (offering 0xffffffff (accumIn .absorb false [])).engine.stage ≠ .idle) := by decide

theorem witness_IllegalWordOnlySetsErrCmd :
    (commandOffered (offering 0x40 (idleAt 63)) = some 0x40 ∧ (offering 0x40 (idleAt 63)).engine.stage = .idle ∧
      ∀ i, (0x40 : Word) ≠ encode i) ∧
    (commandOffered (offering 0x0 doneState) = some 0x0 ∧ (offering 0x0 doneState).engine.stage = .idle ∧
      ∀ i, (0x0 : Word) ≠ encode i) := by
  refine ⟨⟨rfl, rfl, ?_⟩, rfl, rfl, ?_⟩ <;> intro i <;> cases i with
  | init => decide
  | push nb => revert nb; decide
  | final => decide

theorem witness_OneEventSetsAtMostOneCommandError : ∃ t, step (offering 0x0 State.reset) = .next t := ⟨_, rfl⟩

/-! ### Witnesses: the commands -/

theorem witness_InitStartsFreshComputation : doneState.engine.stage = .idle ∧ (roundsAt 63).engine.stage ≠ .idle := by
  decide

theorem witness_PushAbsorbsBytes :
    (∀ c ∈ [0, 59, 60, 63], (idleAt c).engine.stage = .idle ∧ (idleAt c).engine.mode = .absorb ∧
      (idleAt c).engine.cnt ≤ 63) ∧
    (idleAt 59).engine.cnt + 4 ≤ 63 ∧ 64 ≤ (idleAt 60).engine.cnt + 4 ∧ 64 ≤ (idleAt 63).engine.cnt + 1 ∧
    (roundsAt 0).engine.stage ≠ .idle ∧ (doneState.engine.stage = .idle ∧ doneState.engine.mode = .done) := by decide

theorem witness_FinalPadsAndStartsBlock :
    (∀ c ∈ [0, 55, 56, 63], (idleAt c).engine.stage = .idle ∧ (idleAt c).engine.mode = .absorb ∧
      (idleAt c).engine.cnt ≤ 63) ∧
    (idleAt 55).engine.cnt ≤ 55 ∧ 56 ≤ (idleAt 56).engine.cnt ∧
    ({ idleAt 0 with config := ⟨.full64, 0⟩ } : State).config.lenMode = .full64 ∧ (idleAt 0).config.lenMode = .trunc32 ∧
    (accumIn .absorb false []).engine.stage ≠ .idle ∧
    (doneState.engine.stage = .idle ∧ doneState.engine.mode = .done) := by decide

theorem witness_EveryCommandAnswersNext : Inv (idleAt 63) ∧ Inv (roundsAt 0) := ⟨inv_idleAt (by decide), inv_roundsAt 0⟩

theorem witness_CommandFaultsExactlyBeyondBuf :
    exec .final (idleAt 64) = .fault .bufRange ∧ exec (.push 0) (idleAt 64) = .fault .bufRange ∧
      (∃ t, exec .final (idleAt 63) = .next t) ∧ ∃ t, exec .init (idleAt 64) = .next t :=
  ⟨rfl, rfl, ⟨_, rfl⟩, _, rfl⟩

/-! ### Witnesses: the register window -/

theorem witness_RegReadReturnsValue (r : Reg) :
    HostMoves (withOp (.read (regAccess 32 r) 3) (at32 doneState)) (.read (regAccess
      (withOp (.read (regAccess 32 r) 3) (at32 doneState)).config.engineBase r) 3) [] := ⟨rfl, rfl⟩

theorem witness_RegWriteOutsideCmd (r : Reg) (h : r = .data ∨ r = .digest3) :
    r ≠ .cmd ∧ HostMoves (withOp (.write (regAccess 32 r) 0xffffffff) (at32 (roundsAt 0))) (.write (regAccess
      (withOp (.write (regAccess 32 r) 0xffffffff) (at32 (roundsAt 0))).config.engineBase r) 0xffffffff) [] := by
  rcases h with rfl | rfl <;> exact ⟨nofun, rfl, rfl⟩

/-- The window at 32: a wide access of it, words just below and just beyond it, a byte, a half and three bytes of it, a misaligned
word at its end, and its last word. -/
theorem witness_BusAnswersByWidthAndAlignment :
    (∀ a ∈ [Access.mk .wide 32, ⟨.word, 31⟩, ⟨.word, 64⟩, ⟨.byte, 32⟩, ⟨.half, 62⟩, ⟨.three, 60⟩, ⟨.word, 61⟩, ⟨.word, 60⟩],
      let s := withOp (.read a 0) (at32 State.reset)
      nextTurn s = .host ∧ s.prog = [.read a 0] ∧ s.config.engineBase = 32) ∧
    ¬ (32 ≤ 31 ∧ 31 < 32 + 32) ∧ ¬ (32 ≤ 64 ∧ 64 < 32 + 32) ∧ (61 - 32) % 4 ≠ 0 ∧ (60 - 32) % 4 = 0 ∧
    Inv (withOp (.read ⟨.word, 60⟩ 0) (at32 (roundsAt 0))) :=
  ⟨by decide, by decide, by decide, by decide, by decide,
    { engine := (inv_roundsAt 0).engine, config := rfl, temps := rfl }⟩

theorem witness_PollRepeatsUntilValue :
    (∃ p, HostMoves (withOp (.poll (regAccess 0 .status) 0x1 0x0) State.reset) (.poll (regAccess
      (withOp (.poll (regAccess 0 .status) 0x1 0x0) State.reset).config.engineBase .status) 0x1 0x0) p) ∧
    regRead State.reset.config State.reset.engine .status &&& 0x1 = 0x0 ∧
    regRead (roundsAt 0).config (roundsAt 0).engine .status &&& 0x1 ≠ 0x0 := by
  refine ⟨⟨[], rfl, rfl⟩, ?_, ?_⟩ <;> decide

theorem witness_PseudoPushWritesItsCommandWord :
    (Pseudo.push 1).wellFormed = true ∧ (Pseudo.push 4).wellFormed = true := by decide

/-! ### Witnesses: the pure functions -/

theorem witness_RotateMovesEachBit : ∃ n k : Nat, 1 ≤ n ∧ n ≤ 31 ∧ k < 32 := ⟨31, 31, by decide⟩

theorem witness_PaddedLengthIsLeast : (64 ∣ 64 ∧ 55 + 9 ≤ 64) ∧ (64 ∣ 128 ∧ 56 + 9 ≤ 128) := by decide

theorem witness_PaddedContentBytewise :
    let m := List.replicate 54 (0x61 : Byte)
    53 < m.length ∧ m.length < 55 ∧ 55 < paddedLength m.length - 8 := by decide

theorem witness_LengthFieldByMode : 8 * 536870911 < 2 ^ 32 ∧ ¬ 8 * 536870912 < 2 ^ 32 := by decide

/-! ### Witnesses: engine steps -/

theorem witness_RoundStepPerformsRound : ∀ r ∈ [(0 : Fin 64), 62, 63],
    nextTurn (roundsAt r) = .engine ∧ (roundsAt r).engine.stage = .rounds := by decide

theorem witness_AccumStepFoldsBlock : ∀ s ∈ [accumIn .finalizing true [], accumIn .finalizing false [],
      accumIn .absorb false [], accumIn .absorb false [1, 2, 3]],
    nextTurn s = .engine ∧ s.engine.stage = .accum ∧ s.engine.pend.length ≤ 3 := by decide

theorem witness_SixtyFourStepsComputeRounds64 :
    let e := startBlock (engineAt 64)
    e.stage = .rounds ∧ e.rnd = 0 ∧ e.wv = e.acc := by decide

theorem witness_EngineStepsOnlyWhileBusy :
    nextTurn (withTurn .engine State.reset) = .engine ∧ (withTurn .engine State.reset).engine.stage = .idle := by decide

theorem witness_FinalTakesSixtyFiveStepsPerBlock : ∀ c ∈ [0, 55, 56, 63],
    (engineAt c).stage = .idle ∧ (engineAt c).mode = .absorb ∧ (engineAt c).cnt ≤ 63 := by decide

theorem witness_FillingPushTakesSixtyFiveSteps : ∀ c ∈ [60, 63],
    (engineAt c).stage = .idle ∧ (engineAt c).mode = .absorb ∧ (engineAt c).cnt ≤ 63 ∧
      64 ≤ (engineAt c).cnt + ((3 : BitVec 2).toNat + 1) := by decide

/-! ### Witnesses: rules of the whole machine -/

theorem witness_BusyRisesOnlyByFillingPushOrFinal : ∀ s ∈ [offering 0x3 (idleAt 0), offering 0x32 (idleAt 60)],
    s.engine.stage = .idle ∧ after (step s) (fun t => t.engine.stage ≠ .idle) = true := by decide

/-- All three flags set, cleared by INIT and by reset. -/
theorem witness_StickyFlagsClearedOnlyByInitOrReset :
    let s := { State.reset with engine := { Engine.reset with errCmd := true, errBusy := true, lenOvf := true } }
    ∀ s' ∈ [offering 0x1 s, withTurn .reset s],
      (s'.engine.errCmd = true ∧ s'.engine.errBusy = true ∧ s'.engine.lenOvf = true) ∧
      after (step s') (fun t => t.engine.errCmd = false ∧ t.engine.errBusy = false ∧ t.engine.lenOvf = false) = true := by
  decide

theorem witness_EachFlagHasOnlyItsOwnCause :
    after (step (offering 0x0 (roundsAt 0))) (fun t => t.engine.errBusy) = true ∧
    after (step (offering 0x11 State.reset)) (fun t => t.engine.errCmd) = true ∧
    after (step (offering 0x3 doneState)) (fun t => t.engine.errCmd) = true ∧
    after (step (offering 0x2 { State.reset with engine := { engineAt 0 with bitlen := 0xfffffff8 } }))
      (fun t => t.engine.lenOvf) = true ∧
    after (step { State.reset with engine := { (accumIn .absorb false [1]).engine with bitlen := 0xfffffff8 } })
      (fun t => t.engine.lenOvf) = true := by decide

theorem witness_AccumulatorsWrittenOnlyByInitResetAccum :
    let s := { State.reset with engine := { Engine.reset with acc := ⟨1, 2, 3, 4⟩, wv := ⟨5, 6, 7, 8⟩ } }
    ∀ s' ∈ [offering 0x1 s, withTurn .reset s, { s with engine := { s.engine with stage := .accum } }],
      after (step s') (fun t => t.engine.acc ≠ s'.engine.acc) = true := by decide

theorem witness_BufWrittenOnlyByPushFinalAccum : ∀ s ∈ [withTurn .reset oneByte, offering 0x3 oneByte,
      offering 0x2 { oneByte with engine := { oneByte.engine with data := 0x62 } }, accumIn .absorb false [1],
      { accumIn .finalizing true [] with engine := { (accumIn .finalizing true []).engine with lenf := 8 } }],
    after (step s) (fun t => t.engine.buf ≠ s.engine.buf) = true := by decide

theorem witness_DataWrittenOnlyByHost :
    ∃ t, step (withOp (.write (regAccess 0 .data) 0x61) (roundsAt 0)) = .next t := ⟨_, rfl⟩

theorem witness_ParametersNeverChange : ∃ t, step (withOp (.write (regAccess 0 .cfg) 0x1) State.reset) = .next t :=
  ⟨_, rfl⟩

/-- A host turn, an engine turn and a reset. -/
theorem witness_OneEventOneAgent : ∀ s ∈ [withOp (.read (regAccess 0 .data) 1) State.reset, withTurn .engine (roundsAt 0),
      withTurn .reset State.reset], after (step s) (fun _ => true) = true := by decide

theorem witness_WorkingVariablesWrittenOnlyByBlockStartAndRounds :
    ∀ s ∈ [offering 0x32 (idleAt 60), offering 0x3 (idleAt 0), roundsAt 63, accumIn .finalizing true [],
      withTurn .reset { State.reset with engine := { Engine.reset with wv := ⟨1, 2, 3, 4⟩ } }],
    after (step s) (fun t => t.engine.wv ≠ s.engine.wv) = true := by decide

theorem witness_BufStaysCanonical : Memory.wf oneByte.engine.buf = true ∧ ∃ t, step (offering 0x3 oneByte) = .next t :=
  ⟨rfl, _, rfl⟩

theorem witness_EveryStepKeepsInv : ∃ t, Inv (offering 0x32 (idleAt 63)) ∧ step (offering 0x32 (idleAt 63)) = .next t :=
  ⟨_, { engine := (inv_idleAt (c := 63) (by decide)).engine, config := rfl, temps := rfl }, rfl⟩

/-- Two host turns listed, with a duty kept. -/
theorem witness_EnabledEngineStepIsTaken :
    let s := { roundsAt 63 with turns := [.host, .host], prog := [.read (regAccess 0 .status) 0] }
    s.engine.stage ≠ .idle ∧ .reset ∉ s.turns ∧ ∀ op ∈ s.prog, WellAddressed s.config op :=
  ⟨nofun, by decide, fun op h => by
    obtain rfl := List.mem_singleton.mp h
    exact ⟨.status, rfl⟩⟩

/-! ### Witnesses: the digest, and what cannot be told apart -/

theorem witness_EveryStepTracksMessage : ∃ t, Inv (offering 0x3 oneByte) ∧
    Tracks (offering 0x3 oneByte).config.lenMode [0x61] (offering 0x3 oneByte).engine ∧
    step (offering 0x3 oneByte) = .next t :=
  ⟨_, { engine := inv_oneByte.engine, config := rfl, temps := rfl }, tracks_oneByte, rfl⟩

theorem witness_FinalYieldsDigestOfMessage : EngineInv oneByte.engine ∧ Tracks .trunc32 [0x61] oneByte.engine ∧
    oneByte.engine.stage = .idle ∧ oneByte.engine.mode = .absorb := ⟨inv_oneByte.engine, tracks_oneByte, rfl, rfl⟩

/-- "abcde" in two groups with other bits above the second, and some turns fixed. -/
theorem witness_CommandSequenceComputesDigest :
    let gs : List (Word × BitVec 2) := [(0x64636261, 3), (0xffffff65, 0)]
    let s := { State.reset with turns := [.host, .engine, .host], prog := assemble 0 (messageStmts gs) }
    Fresh s.engine ∧ .reset ∉ s.turns ∧ s.prog = assemble s.config.engineBase (messageStmts gs) ∧
      messageOf gs = [0x61, 0x62, 0x63, 0x64, 0x65] :=
  ⟨⟨rfl, rfl, rfl, rfl, rfl, rfl, rfl, rfl, rfl, rfl⟩, by decide, rfl, by decide⟩

/-- Two states that differ in the working variables, in RND and in BUF beyond CNT. -/
theorem witness_UnspecifiedElementsStayHidden :
    let f := { oneByte.engine with wv := ⟨1, 2, 3, 4⟩, rnd := 7, buf := [(0, 0x61), (1, 0xff)] }
    Agree oneByte { oneByte with engine := f } ∧ oneByte ≠ { oneByte with engine := f } := by
  refine ⟨⟨⟨rfl, rfl, rfl, rfl, rfl, rfl, rfl, rfl, rfl, rfl, rfl, rfl, ?_, fun h => absurd rfl h,
    fun h => absurd rfl h⟩, rfl, rfl, rfl, rfl⟩, by decide⟩
  intro k _ hk
  have h : k < 1 := hk rfl
  have h0 : k = 0 := by omega
  subst h0
  rfl

theorem witness_AgreeingStatesObserveTheSame : ∃ s t : State, Agree s t ∧ s ≠ t :=
  ⟨_, _, witness_UnspecifiedElementsStayHidden⟩

/-! ### Witnesses: the counters -/

/-- 64 zero bytes, the block of which compresses. -/
def fullBlock : State := { roundsAt 0 with engine := { (roundsAt 0).engine with wv := iv } }

/-- 55 zero bytes, FINAL taken: the only padding block compresses. -/
def onlyPadding : State := { State.reset with engine := finalCommand .trunc32 (engineAt 55) }

/-- 56 zero bytes, FINAL taken: the block with the marker compresses. -/
def markerBlock : State := { State.reset with engine := finalCommand .trunc32 (engineAt 56) }

/-- 56 zero bytes, the block with the marker folded in: the second padding block compresses (the contents of PB-3's block 1). -/
def secondPadding : State :=
  let q := chain iv (byteAt (pad .trunc32 (List.replicate 56 0))) 1
  { State.reset with engine := { Engine.reset with
      acc := q, wv := q, buf := [(56, 0xc0), (57, 0x01)], bitlen := 0x1c0, lenf := 0x1c0, stage := .rounds
      mode := .finalizing } }

theorem inv_fullBlock : Inv fullBlock :=
  ⟨{ (inv_roundsAt 0).engine with bufWf := rfl }, rfl, rfl⟩

theorem tracks_fullBlock : Tracks .trunc32 (List.replicate 64 0) fullBlock.engine :=
  ⟨by decide, rfl, rfl, by decide, ⟨by decide, by decide, rfl, by decide⟩, rfl⟩

theorem inv_onlyPadding : Inv onlyPadding :=
  ⟨⟨rfl, by decide, by decide, by decide, by decide, by decide, by decide, by decide, by decide, by decide, by decide⟩,
    rfl, rfl⟩

theorem tracks_onlyPadding : Tracks .trunc32 (List.replicate 55 0) onlyPadding.engine :=
  ⟨by decide, rfl, rfl, by decide, ⟨rfl, by decide, rfl, by decide⟩, rfl⟩

theorem inv_markerBlock : Inv markerBlock :=
  ⟨⟨rfl, by decide, by decide, by decide, by decide, by decide, by decide, by decide, by decide, by decide, by decide⟩,
    rfl, rfl⟩

theorem inv_secondPadding : Inv secondPadding :=
  ⟨⟨rfl, by decide, by decide, by decide, by decide, by decide, by decide, by decide, by decide, by decide, by decide⟩,
    rfl, rfl⟩

theorem tracks_markerBlock : Tracks .trunc32 (List.replicate 56 0) markerBlock.engine :=
  ⟨by decide, rfl, rfl, by decide, ⟨rfl, by decide, rfl, by decide⟩, rfl⟩

theorem tracks_secondPadding : Tracks .trunc32 (List.replicate 56 0) secondPadding.engine :=
  ⟨by decide, rfl, rfl, by decide, ⟨by decide, by decide, rfl, by decide⟩, rfl⟩

theorem witness_CountersCountAbsorbedBytes :
    (Inv oneByte ∧ Tracks .trunc32 [0x61] oneByte.engine ∧ oneByte.engine.stage = .idle) ∧
    (Inv fullBlock ∧ Tracks .trunc32 (List.replicate 64 0) fullBlock.engine ∧ fullBlock.engine.stage ≠ .idle) ∧
    (Inv onlyPadding ∧ Tracks .trunc32 (List.replicate 55 0) onlyPadding.engine ∧
      onlyPadding.engine.mode = .finalizing ∧ onlyPadding.engine.fin2 = false ∧ onlyPadding.engine.cnt = 55) ∧
    (Inv markerBlock ∧ Tracks .trunc32 (List.replicate 56 0) markerBlock.engine ∧ markerBlock.engine.mode = .finalizing ∧
      markerBlock.engine.fin2 = true ∧ markerBlock.engine.cnt = 56) ∧
    (Inv secondPadding ∧ Tracks .trunc32 (List.replicate 56 0) secondPadding.engine ∧
      secondPadding.engine.mode = .finalizing ∧ secondPadding.engine.fin2 = false ∧ secondPadding.engine.cnt = 0) :=
  ⟨⟨inv_oneByte, tracks_oneByte, rfl⟩, ⟨inv_fullBlock, tracks_fullBlock, nofun⟩,
    ⟨inv_onlyPadding, tracks_onlyPadding, rfl, rfl, rfl⟩, ⟨inv_markerBlock, tracks_markerBlock, rfl, rfl, rfl⟩,
    inv_secondPadding, tracks_secondPadding, rfl, rfl, rfl⟩

/-- An engine that kept CNT into the second padding block does not meet the invariant. -/
theorem test_inv_refuses_kept_cnt : ¬ EngineInv { secondPadding.engine with cnt := 56 } := fun h =>
  absurd ((h.countFinal rfl).2.2.2 rfl (by decide)) (by decide)

/-! ### Witnesses: the schedule, at the ends of each range -/

theorem witness_RoundSelectsFunctionAndWord : (0 < 16 ∧ 15 < 16) ∧ (16 ≤ 16 ∧ 16 ≤ 31 ∧ 31 < 32) ∧
    (32 ≤ 32 ∧ 32 ≤ 47 ∧ 47 < 48) ∧ (48 ≤ 48 ∧ 48 ≤ 63 ∧ 63 < 64) ∧ (∃ q j : Nat, q < 4 ∧ j < 16) :=
  ⟨by decide, by decide, by decide, by decide, 3, 15, by decide⟩

theorem witness_RotationRomHoldsItsCycles : ∃ k i : Nat, k < 4 ∧ i < 64 := ⟨3, 63, by decide⟩

theorem witness_RoundConstantRomHoldsItsTable : ∃ i : Nat, i < 16 := ⟨15, by decide⟩

theorem witness_ScheduleIsItsTable : ∃ i : Nat, i < 16 := ⟨15, by decide⟩

end Sys2Proof.Tests
end

section
/-! PROOFS. The parameters of the instance (R6, R32): no event writes the configuration, and CFG shows nothing else. -/

namespace Sys2Proof.Machine

/-- CFG shows LEN_MODE and no element of the engine (R32). -/
@[simp] theorem regRead_cfg (c : Config) (e : Engine) : regRead c e .cfg = cfgWord c.lenMode := rfl

/-- A word written to CMD changes the engine only, whether it is executed, rejected or dropped. -/
theorem CommandEffect.sameHost {v : Word} {s t : State} (h : CommandEffect v s t) : SameHost s t := by
  cases h with
  | dropped | illegal | afterDone | init | push | final => exact ⟨rfl, rfl, rfl, rfl⟩

/-- Only a command reaches the state through a function of its own; every other event is one of the state's updates, and
none of these writes the configuration. -/
theorem Event.config_eq {s t : State} (h : Event s t) : t.config = s.config := by
  cases h with
  | reset | engineIdle | round | accum | hostIdle | read | pollHit | pollMiss | writeData | writeIgnored => simp
  | command v p t ht hp he =>
    calc t.config = ((s.withTurns s.turns.tail).withProg p).config := he.sameHost.config
      _ = s.config := by simp

theorem step_config_eq {s t : State} (h : step s = .next t) : t.config = s.config := (step_event h).config_eq

/-- Settles O43: every event keeps the configuration, and CFG is a function of it alone. -/
theorem parametersNeverChange : Obligations.ParametersNeverChange := by
  intro s t h
  have hc : t.config = s.config := step_config_eq h
  exact ⟨hc, by rw [regRead_cfg, regRead_cfg, hc]⟩

end Sys2Proof.Machine
end

section
/-! PROOFS. What one event can do to the engine, said once, and the rules that say which events write an element of it
(R20, R21, R22, R31). -/

namespace Sys2Proof.Machine

/-- What one event can do to the engine, with the command or the transaction behind it (R59, R152). -/
inductive EngineEvent (s : State) : Engine → Prop
  /-- The reset event (R210). -/
  | reset (ht : nextTurn s = .reset) : EngineEvent s Engine.reset
  /-- A turn that passes, a read, a poll, or a write that is ignored. -/
  | same : EngineEvent s s.engine
  /-- ROUND (R159). -/
  | round (ht : nextTurn s = .engine) (hs : s.engine.stage = .rounds) : EngineEvent s (engineRound s.engine)
  /-- ACCUM (R160). -/
  | accum (ht : nextTurn s = .engine) (hs : s.engine.stage = .accum) :
    EngineEvent s (engineAccum s.config.lenMode s.engine)
  /-- A write to DATA (R151). -/
  | data (v : Word) (p : List HostOp) (hp : HostMoves s (.write (regAccess s.config.engineBase .data) v) p) :
    EngineEvent s (s.engine.withData v)
  /-- A word dropped while BUSY = 1 (R152). -/
  | dropped (hb : s.engine.stage ≠ .idle) : EngineEvent s s.engine.setErrBusy
  /-- A word rejected while BUSY = 0 (R75, R152). -/
  | rejected (hi : s.engine.stage = .idle) : EngineEvent s s.engine.setErrCmd
  /-- INIT (R154). -/
  | init (ha : commandAccepted s = some .init) (hi : s.engine.stage = .idle) : EngineEvent s (initCommand s.engine)
  /-- PUSH (R155). -/
  | push (nb : BitVec 2) (ha : commandAccepted s = some (.push nb)) (hi : s.engine.stage = .idle)
    (hm : s.engine.mode ≠ .done) (hc : s.engine.cnt < 64) :
    EngineEvent s (pushCommand s.config.lenMode nb s.engine)
  /-- FINAL (R156). -/
  | final (ha : commandAccepted s = some .final) (hi : s.engine.stage = .idle)
    (hm : s.engine.mode ≠ .done) (hc : s.engine.cnt < 64) :
    EngineEvent s (finalCommand s.config.lenMode s.engine)

/-- A word written to CMD, as the event it is to the engine. -/
theorem CommandEffect.engineEvent {v : Word} {s t : State} {p : List HostOp}
    (hp : HostMoves s (.write (regAccess s.config.engineBase .cmd) v) p)
    (h : CommandEffect v ((s.withTurns s.turns.tail).withProg p) t) : EngineEvent s t.engine := by
  have ho : commandOffered s = some v := commandOffered_eq_some.mpr ⟨p, hp⟩
  cases h with
  | dropped hb => exact .dropped hb
  | illegal why hi hd => exact .rejected hi
  | afterDone i hi hd hn hm => exact .rejected hi
  | init hi hd => exact .init (commandAccepted_eq_some ho hi hd (.inl rfl)) hi
  | push nb hi hd hm hc => exact .push nb (commandAccepted_eq_some ho hi hd (.inr hm)) hi hm hc
  | final hi hd hm hc => exact .final (commandAccepted_eq_some ho hi hd (.inr hm)) hi hm hc

/-- Every step that answers a next state is one of these events to the engine. -/
theorem step_engineEvent {s t : State} (h : step s = .next t) : EngineEvent s t.engine := by
  cases step_event h with
  | reset ht => exact .reset ht
  | round ht hs => exact .round ht hs
  | accum ht hs => exact .accum ht hs
  | engineIdle | hostIdle | read | pollHit | pollMiss | writeIgnored => exact .same
  | writeData v p ht hp => exact .data v p ⟨ht, hp⟩
  | command v p t ht hp he => exact he.engineEvent ⟨ht, hp⟩

/-! ### What an accumulation step and a PUSH leave -/

/-- After an accumulation step the engine is idle with its working variables, or it has started a block (R160, R157). -/
theorem engineAccum_start_or_stay (m : LenMode) (e : Engine) :
    ((engineAccum m e).stage = .idle ∧ (engineAccum m e).wv = e.wv) ∨
    ((engineAccum m e).stage = .rounds ∧ (engineAccum m e).rnd = 0 ∧ (engineAccum m e).wv = (engineAccum m e).acc) := by
  rcases engineAccum_cases m e with ⟨-, -, h⟩ | ⟨-, -, h⟩ | ⟨-, h⟩ <;> rw [h]
  · exact .inr ⟨rfl, rfl, rfl⟩
  · exact .inl ⟨rfl, rfl⟩
  · exact absorbList_start_or_stay m e.pend (foldBlock e) rfl

/-- The accumulation step keeps the canonical form of BUF. -/
theorem engineAccum_wf (m : LenMode) {e : Engine} (h : Memory.wf e.buf = true) :
    Memory.wf (engineAccum m e).buf = true := by
  rcases engineAccum_cases m e with ⟨-, -, h'⟩ | ⟨-, -, h'⟩ | ⟨-, h'⟩ <;> rw [h']
  · exact Memory.wf_writeBytes 0 _ h
  · exact h
  · exact absorbList_wf h

@[simp] theorem pushCommand_acc (m : LenMode) (nb : BitVec 2) (e : Engine) : (pushCommand m nb e).acc = e.acc :=
  (absorbList_frame m _ e).1

@[simp] theorem pushCommand_data (m : LenMode) (nb : BitVec 2) (e : Engine) : (pushCommand m nb e).data = e.data := by
  obtain ⟨-, -, -, -, -, -, hdata⟩ := absorbList_frame m (dataBytes e.data (pushCount nb)) e
  exact hdata

@[simp] theorem engineAccum_data (m : LenMode) (e : Engine) : (engineAccum m e).data = e.data := by
  obtain ⟨-, -, -, -, hdata⟩ := engineAccum_frame m e
  exact hdata

/-! ### Who writes what -/

/-- Settles O40: no event but these three changes ACC. -/
theorem accumulatorsWrittenOnlyByInitResetAccum : Obligations.AccumulatorsWrittenOnlyByInitResetAccum := by
  intro s t h hne
  generalize t.engine = f, step_engineEvent h = he at hne
  cases he with
  | reset ht => exact .inl ht
  | init ha hi => exact .inr (.inl ha)
  | accum ht hs => exact .inr (.inr ⟨ht, hs⟩)
  | same | round | data | dropped | rejected | push | final => exact absurd (by simp) hne

/-- Settles O41: no event but these four changes BUF. -/
theorem bufWrittenOnlyByPushFinalAccum : Obligations.BufWrittenOnlyByPushFinalAccum := by
  intro s t h hne
  generalize t.engine = f, step_engineEvent h = he at hne
  cases he with
  | reset ht => exact .inl ht
  | push nb ha => exact .inr (.inl ⟨nb, ha⟩)
  | final ha => exact .inr (.inr (.inl ha))
  | accum ht hs => exact .inr (.inr (.inr ⟨ht, hs⟩))
  | same | round | data | dropped | rejected | init => exact absurd (by simp) hne

/-- Settles O42: of the events that are no reset, only the host's write to DATA changes it. -/
theorem dataWrittenOnlyByHost : Obligations.DataWrittenOnlyByHost := by
  intro s t h
  generalize t.engine = f, step_engineEvent h = he
  cases he with
  | reset ht => exact .inl ht
  | data v p hp => exact .inr (.inr ⟨v, p, hp, rfl⟩)
  | same | round | accum | dropped | rejected | init | push | final => exact .inr (.inl (by simp))

/-- Settles O45: PUSH, FINAL and the accumulation step change the working variables only where they start a block. -/
theorem workingVariablesWrittenOnlyByBlockStartAndRounds :
    Obligations.WorkingVariablesWrittenOnlyByBlockStartAndRounds := by
  intro s t h hne
  generalize t.engine = f, step_engineEvent h = he at hne
  cases he with
  | reset ht => exact .inl ht
  | round ht hs => exact .inr (.inr ⟨ht, hs⟩)
  | accum ht hs =>
    rcases engineAccum_start_or_stay s.config.lenMode s.engine with ⟨-, hwv⟩ | ⟨hst, hrnd, hwv⟩
    · exact absurd hwv hne
    · exact .inr (.inl ⟨hst, hrnd, hwv, by simp [hs]⟩)
  | push nb ha hi =>
    rcases absorbList_start_or_stay s.config.lenMode _ s.engine hi with ⟨-, hwv⟩ | ⟨hst, hrnd, hwv⟩
    · exact absurd hwv hne
    · exact .inr (.inl ⟨hst, hrnd, hwv, by simp [hi]⟩)
  | final ha hi => exact .inr (.inl ⟨rfl, rfl, rfl, by simp [hi]⟩)
  | same | data | dropped | rejected | init => exact absurd (by simp) hne

/-- Settles O46: BUF is written byte by byte only, and each write keeps the canonical form. -/
theorem bufStaysCanonical : Obligations.BufStaysCanonical := by
  intro s t hwf h
  generalize t.engine = f, step_engineEvent h = he
  cases he with
  | reset => exact Memory.wf_nil
  | accum => exact engineAccum_wf _ hwf
  | push => exact absorbList_wf hwf
  | final => exact Memory.wf_writeBytes _ _ hwf
  | same | round | data | dropped | rejected | init => simpa using hwf

end Sys2Proof.Machine
end

section
/-! PROOFS. The invariant of R39: it holds at reset, and each operation of the engine keeps it. -/

namespace Sys2Proof.Machine

/-! ### The engine's part -/

theorem EngineInv.reset : EngineInv Engine.reset where
  bufWf := Memory.wf_nil
  cntLe := by decide
  pendLe := by decide
  idle := by decide
  finalizing := by decide
  done := by decide
  pend := by decide
  fin2 := by decide
  full := by decide
  count := by decide
  countFinal := by decide

/-- The invariant speaks of BUF, CNT, BITLEN, PEND, MODE, FIN2 and BUSY only. -/
theorem EngineInv.of_eq {e f : Engine} (h : EngineInv e) (hbuf : f.buf = e.buf) (hcnt : f.cnt = e.cnt)
    (hbitlen : f.bitlen = e.bitlen) (hpend : f.pend = e.pend) (hmode : f.mode = e.mode) (hfin2 : f.fin2 = e.fin2)
    (hbusy : f.stage = .idle ↔ e.stage = .idle) : EngineInv f where
  bufWf := by rw [hbuf]; exact h.bufWf
  cntLe := by rw [hcnt]; exact h.cntLe
  pendLe := by rw [hpend]; exact h.pendLe
  idle := by rw [hbusy, hcnt, hpend, hfin2]; exact h.idle
  finalizing := by rw [hmode, ne_eq, hbusy]; exact h.finalizing
  done := by rw [hmode, hbusy]; exact h.done
  pend := by rw [hpend, hmode, ne_eq f.stage, hbusy]; exact h.pend
  fin2 := by rw [hfin2, hmode]; exact h.fin2
  full := by rw [ne_eq, hbusy, hmode, hcnt]; exact h.full
  count := by rw [hmode, hbitlen, hcnt]; exact h.count
  countFinal := by rw [hmode, hbitlen, hfin2, hcnt]; exact h.countFinal

/-- An idle engine that is not done accepts message bytes (R39.2). -/
theorem EngineInv.mode_absorb {e : Engine} (h : EngineInv e) (hi : e.stage = .idle) (hm : e.mode ≠ .done) :
    e.mode = .absorb := by
  cases hmode : e.mode with
  | absorb => rfl
  | finalizing => exact absurd hi (h.finalizing hmode)
  | done => exact absurd hmode hm

/-- Bytes wait in PEND only while message bytes are accepted (R39.5). -/
theorem EngineInv.pend_nil {e : Engine} (h : EngineInv e) (hm : e.mode ≠ .absorb) : e.pend = [] :=
  Classical.byContradiction fun hp => hm (h.pend hp).2

/-- A round changes the working variables, RND and STAGE, and leaves BUSY = 1 (R159). -/
theorem EngineInv.after_round {e : Engine} (h : EngineInv e) (hs : e.stage = .rounds) : EngineInv (engineRound e) := by
  have hbusy : (engineRound e).stage ≠ .idle := by
    rw [engineRound_stage, hs]; split <;> simp
  exact h.of_eq (by simp) (by simp) (by simp) (by simp) (by simp) (by simp) (by simp [hbusy, hs])

/-- INIT leaves an idle engine in MODE = ABSORB with every counter at zero (R154). -/
theorem EngineInv.after_init {e : Engine} (h : EngineInv e) (hi : e.stage = .idle) : EngineInv (initCommand e) where
  bufWf := h.bufWf
  cntLe := by simp
  pendLe := by simp
  idle := by simp
  finalizing := by simp
  done := by simp
  pend := by simp
  fin2 := by simp
  full := by simp [hi]
  count := by simp
  countFinal := by simp

/-- Absorbing up to 4 bytes from an idle engine: at least one finds room, so at most 3 wait (R153, R158). -/
theorem EngineInv.after_absorb {e : Engine} (h : EngineInv e) (m : LenMode) {bs : List Byte} (hi : e.stage = .idle)
    (hm : e.mode = .absorb) (hbs : bs.length ≤ 4) : EngineInv (absorbList m bs e) := by
  obtain ⟨hcnt63, -, hfin2⟩ := h.idle hi
  obtain ⟨h8, hmod⟩ := h.count hm
  obtain ⟨-, hmode', hfin2', -⟩ := absorbList_frame m bs e
  obtain ⟨-, hcnt', hbitlen', hpend', hstay, hstart⟩ := absorbList_spec m bs e hi hcnt63
  have hmode : (absorbList m bs e).mode = .absorb := hmode'.trans hm
  have hbits : (absorbList m bs e).bitlen.toNat =
      (e.bitlen.toNat + 8 * min bs.length (64 - e.cnt)) % 2 ^ 64 := by
    rw [hbitlen', BitVec.toNat_add, BitVec.toNat_ofNat, Nat.add_mod_mod]
  have hwait : (absorbList m bs e).pend.length = bs.length - min bs.length (64 - e.cnt) := by
    rw [hpend', List.length_drop]
  have hidle : (absorbList m bs e).stage = .idle → e.cnt + bs.length ≤ 63 := fun hst => by
    by_contra hlt
    have := (hstart (by omega)).1
    simp [hst] at this
  have hbusy : (absorbList m bs e).stage ≠ .idle → 64 ≤ e.cnt + bs.length := fun hst => by
    by_contra hlt
    exact hst (hstay (by omega)).1
  exact {
    bufWf := absorbList_wf h.bufWf
    cntLe := by omega
    pendLe := by omega
    idle := fun hst => by
      have hroom := hidle hst
      exact ⟨by omega, List.eq_nil_of_length_eq_zero (by omega), hfin2'.trans hfin2⟩
    finalizing := by simp [hmode]
    done := by simp [hmode]
    pend := fun hp => ⟨fun hst => by
      have hroom := hidle hst
      exact hp (List.eq_nil_of_length_eq_zero (by omega)), hmode⟩
    fin2 := by simp [hfin2', hfin2]
    full := fun hst _ => by
      have hfull := hbusy hst
      omega
    count := fun _ => by omega
    countFinal := by simp [hmode] }

/-- FINAL latches the count: the marker's block holds all CNT bytes, and there is a second one iff CNT is 56 or more (R156). -/
theorem EngineInv.after_final {e : Engine} (h : EngineInv e) (m : LenMode) (hi : e.stage = .idle)
    (hm : e.mode = .absorb) : EngineInv (finalCommand m e) := by
  obtain ⟨hcnt63, hpend, -⟩ := h.idle hi
  obtain ⟨h8, hmod⟩ := h.count hm
  exact {
    bufWf := Memory.wf_writeBytes _ _ h.bufWf
    cntLe := h.cntLe
    pendLe := h.pendLe
    idle := by simp
    finalizing := by simp
    done := by simp
    pend := by simp [hpend]
    fin2 := by simp
    full := by simp
    count := by simp
    countFinal := fun _ => by
      simp only [finalCommand_bitlen, finalCommand_cnt, finalCommand_fin2, decide_eq_true_eq, decide_eq_false_iff_not]
      omega }

/-- Absorbing begins by emptying PEND, so what PEND held does not matter (R158). -/
theorem absorbList_withPend (m : LenMode) (bs l : List Byte) (e : Engine) :
    absorbList m bs (e.withPend l) = absorbList m bs e := by
  cases bs with
  | nil => rfl
  | cons x bs => rfl

/-- Before the waiting bytes are absorbed, the folded engine is idle with an empty block (R160). -/
theorem EngineInv.after_fold {e : Engine} (h : EngineInv e) (hs : e.stage ≠ .idle) (hm : e.mode = .absorb) :
    EngineInv ((foldBlock e).withPend []) := by
  obtain ⟨h8, hmod⟩ := h.count hm
  have hcnt : e.cnt = 64 := h.full hs hm
  have hfin2 : e.fin2 = false := by
    cases hf : e.fin2 with
    | false => rfl
    | true => simpa [hm] using h.fin2 hf
  exact {
    bufWf := h.bufWf
    cntLe := by simp
    pendLe := by simp
    idle := by simp [hfin2]
    finalizing := by simp [hm]
    done := by simp
    pend := by simp
    fin2 := by simp [hfin2]
    full := by simp
    count := fun _ => by
      simp only [Engine.withPend_bitlen, Engine.withPend_cnt, foldBlock_bitlen, foldBlock_cnt]
      omega
    countFinal := by simp [hm] }

/-- The second padding block starts with CNT = 0, as R160 writes (log entry 12). -/
theorem EngineInv.after_secondBlock {e : Engine} (h : EngineInv e) (hm : e.mode = .finalizing) (hf : e.fin2 = true) :
    EngineInv (startBlock { foldBlock e with
      buf := Memory.writeBytes e.buf 0 (secondBlock e.lenf), fin2 := false }) := by
  have hpend : e.pend = [] := h.pend_nil (by simp [hm])
  obtain ⟨h8, h56, -, -⟩ := h.countFinal hm
  exact {
    bufWf := Memory.wf_writeBytes _ _ h.bufWf
    cntLe := by simp
    pendLe := h.pendLe
    idle := by simp
    finalizing := by simp
    done := by simp [hm]
    pend := by simp [hpend]
    fin2 := by simp
    full := by simp [hm]
    count := by simp [hm]
    countFinal := fun _ => by
      have hbyte := h56 hf
      simp only [startBlock_bitlen, startBlock_cnt, startBlock_fin2, foldBlock_bitlen, foldBlock_cnt]
      simp only [Bool.false_eq_true, false_or, false_implies, true_and, implies_true, and_true, h8]
      omega }

/-- The last accumulation step leaves an idle engine that is done (R160). -/
theorem EngineInv.after_lastFold {e : Engine} (h : EngineInv e) (hm : e.mode = .finalizing) (hf : e.fin2 = false) :
    EngineInv { foldBlock e with mode := .done } := by
  have hpend : e.pend = [] := h.pend_nil (by simp [hm])
  exact {
    bufWf := h.bufWf
    cntLe := by simp
    pendLe := h.pendLe
    idle := by simp [hpend, hf]
    finalizing := by simp
    done := by simp
    pend := by simp [hpend]
    fin2 := by simp [hf]
    full := by simp
    count := by simp
    countFinal := by simp }

theorem EngineInv.after_accum {e : Engine} (h : EngineInv e) (m : LenMode) (hs : e.stage = .accum) :
    EngineInv (engineAccum m e) := by
  have hbusy : e.stage ≠ .idle := by simp [hs]
  rcases engineAccum_cases m e with ⟨hm, hf, he⟩ | ⟨hm, hf, he⟩ | ⟨hm, he⟩ <;> rw [he]
  · exact h.after_secondBlock hm hf
  · exact h.after_lastFold hm hf
  · have habsorb : e.mode = .absorb := by
      cases hmode : e.mode with
      | absorb => rfl
      | finalizing => exact absurd hmode hm
      | done => exact absurd (h.done hmode) hbusy
    rw [← absorbList_withPend m e.pend []]
    exact (h.after_fold hbusy habsorb).after_absorb m rfl habsorb (Nat.le_succ_of_le h.pendLe)

/-- Every event keeps the engine's part of the invariant. -/
theorem EngineEvent.inv {s : State} {f : Engine} (he : EngineEvent s f) (h : EngineInv s.engine) : EngineInv f := by
  cases he with
  | reset => exact .reset
  | same => exact h
  | round ht hs => exact h.after_round hs
  | accum ht hs => exact h.after_accum _ hs
  | data | dropped | rejected => exact h.of_eq rfl rfl rfl rfl rfl rfl Iff.rfl
  | init ha hi => exact h.after_init hi
  | push nb ha hi hm => exact h.after_absorb _ hi (h.mode_absorb hi hm) (by simpa using pushCount_le nb)
  | final ha hi hm => exact h.after_final _ hi (h.mode_absorb hi hm)

/-! ### The whole machine -/

/-- Only a read touches the host's temporaries, and loading one keeps their order. -/
theorem Event.temps_wf {s t : State} (h : Event s t) (hs : tempsWfFrom 0 s.temps = true) :
    tempsWfFrom 0 t.temps = true := by
  cases h with
  | read r n p ht hp => exact tempsWfFrom_loadTemp _ (Nat.zero_le n) hs
  | command v p t ht hp he => rw [he.sameHost.temps]; exact hs
  | reset | engineIdle | round | accum | hostIdle | pollHit | pollMiss | writeData | writeIgnored => exact hs

/-- Settles O47: the engine's part, the parameters and the temporaries one by one. -/
theorem everyStepKeepsInv : Obligations.EveryStepKeepsInv := by
  intro s t h hst
  exact {
    engine := (step_engineEvent hst).inv h.engine
    config := by rw [step_config_eq hst]; exact h.config
    temps := (step_event hst).temps_wf h.temps }

/-- Settles O48. -/
theorem resetMeetsInv : Obligations.ResetMeetsInv := ⟨.reset, rfl, rfl⟩

end Sys2Proof.Machine
end

section
/-! PROOFS. What R40 leaves unspecified stays hidden: each operation takes two engines that agree to two that agree, and no
register tells them apart (R40, R145). -/

namespace Sys2Proof.Machine

/-! ### Reading two blocks that agree at their 64 bytes -/

/-- A row written over both of two memories that agree below it: they agree up to its end. -/
theorem Memory.read_writeBytes_congr {m n : Memory} {c : Nat} (vs : List Byte)
    (h : ∀ k, k < 64 → k < c → Memory.read m k = Memory.read n k) {k : Nat} (h64 : k < 64) (hk : k < c + vs.length) :
    Memory.read (Memory.writeBytes m c vs) k = Memory.read (Memory.writeBytes n c vs) k := by
  rw [Memory.read_writeBytes, Memory.read_writeBytes]
  split
  · rfl
  · exact h k h64 (by omega)

/-- A round reads a block only at its 64 bytes. -/
theorem round_congr {f g : Nat → Byte} (h : ∀ k, k < 64 → f k = g k) {i : Nat} (hi : i < 64) (q : Quad) :
    round i q (messageWord f) = round i q (messageWord g) := by
  simp only [round, messageWord_congr h (gsel_lt hi)]

/-! ### The two parts of ABSORB_BYTE (R153) -/

/-- The engine with byte x in place and counted, before a full block starts. -/
def Engine.placeByte (m : LenMode) (x : Byte) (e : Engine) : Engine :=
  { e with
    buf := Memory.write e.buf e.cnt x
    cnt := e.cnt + 1
    bitlen := BitVec.ofNat 64 (e.bitlen.toNat + 8)
    lenOvf := e.lenOvf || absorbOverflows m (e.bitlen.toNat + 8) }

theorem absorbByte_eq (m : LenMode) (x : Byte) (e : Engine) :
    absorbByte m x e = if (e.placeByte m x).cnt = 64 then startBlock (e.placeByte m x) else e.placeByte m x := rfl

theorem Engine.placeByte_buf (m : LenMode) (x : Byte) (e : Engine) :
    (e.placeByte m x).buf = Memory.writeBytes e.buf e.cnt [x] := rfl

/-! ### How an accumulation step ends, by MODE and FIN2 (R160) -/

theorem engineAccum_secondBlock {m : LenMode} {e : Engine} (hm : e.mode = .finalizing) (hf : e.fin2 = true) :
    engineAccum m e =
      startBlock { foldBlock e with buf := Memory.writeBytes e.buf 0 (secondBlock e.lenf), fin2 := false } := by
  simp [engineAccum, hm, hf]

theorem engineAccum_done {m : LenMode} {e : Engine} (hm : e.mode = .finalizing) (hf : e.fin2 = false) :
    engineAccum m e = { foldBlock e with mode := .done } := by
  simp [engineAccum, hm, hf]

theorem engineAccum_absorb {m : LenMode} {e : Engine} (hm : e.mode ≠ .finalizing) :
    engineAccum m e = absorbList m e.pend (foldBlock e) := by
  rcases engineAccum_cases m e with ⟨h, -, -⟩ | ⟨h, -, -⟩ | ⟨-, h⟩
  · exact absurd h hm
  · exact absurd h hm
  · exact h

/-! ### The engine's operations -/

section Operations

variable {e f : Engine} (h : Engine.Agree e f)
include h

/-- While a block compresses, all of it is in place. -/
theorem Engine.Agree.block (hb : e.stage ≠ .idle) (k : Nat) (hk : k < 64) :
    Memory.read e.buf k = Memory.read f.buf k :=
  h.buf k hk fun hi => absurd hi hb

theorem Engine.Agree.busy_eq : e.busy = f.busy := by rw [Engine.busy, Engine.busy, h.stage]

theorem Engine.Agree.isDone_eq : e.isDone = f.isDone := by rw [Engine.isDone, Engine.isDone, h.mode]

/-- No register shows what two engines that agree may differ in (R145). -/
theorem Engine.Agree.regRead_eq (c : Config) (r : Reg) : regRead c e r = regRead c f r := by
  cases r with
  | cmd | cfg => rfl
  | data => exact h.data
  | status => simp only [regRead, Engine.status, h.busy_eq, h.isDone_eq, h.errCmd, h.errBusy, h.lenOvf]
  | digest0 | digest1 | digest2 | digest3 => simp only [regRead, digestWord, h.isDone_eq, h.acc]

theorem Engine.Agree.withPend (bs : List Byte) : Engine.Agree (e.withPend bs) (f.withPend bs) :=
  { h with pend := rfl }

theorem Engine.Agree.withData (v : Word) : Engine.Agree (e.withData v) (f.withData v) :=
  { h with data := rfl }

theorem Engine.Agree.setErrCmd : Engine.Agree e.setErrCmd f.setErrCmd :=
  { h with errCmd := rfl }

theorem Engine.Agree.setErrBusy : Engine.Agree e.setErrBusy f.setErrBusy :=
  { h with errBusy := rfl }

/-- A block that starts takes its working variables from the accumulators; all of it must be in place (R157). -/
theorem Engine.Agree.startBlock (hbuf : ∀ k, k < 64 → Memory.read e.buf k = Memory.read f.buf k) :
    Engine.Agree (startBlock e) (startBlock f) :=
  { h with
    stage := rfl
    buf := fun k h64 _ => hbuf k h64
    wv := fun _ => h.acc
    rnd := fun _ => rfl }

/-- INIT leaves no byte of the current block in place (R154). -/
theorem Engine.Agree.initCommand : Engine.Agree (initCommand e) (initCommand f) :=
  { h with
    acc := rfl, cnt := rfl, bitlen := rfl, pend := rfl, mode := rfl, fin2 := rfl, lenf := rfl
    errCmd := rfl, errBusy := rfl, lenOvf := rfl
    buf := fun k h64 hk => h.buf k h64 fun hi => absurd (hk hi) (Nat.not_lt_zero k) }

/-- FINAL writes every byte of the block from CNT up (R156, R99). -/
theorem Engine.Agree.finalCommand (m : LenMode) (hc : e.cnt < 64) :
    Engine.Agree (finalCommand m e) (finalCommand m f) :=
  { h with
    stage := rfl
    mode := rfl
    lenf := by simp [h.bitlen]
    fin2 := by simp [h.cnt]
    wv := fun _ => h.acc
    rnd := fun _ => rfl
    buf := fun k h64 _ => by
      have hlen := finalTail_length (lengthField m e.bitlen) (show e.cnt ≤ 63 by omega)
      rw [finalCommand_buf, finalCommand_buf, ← h.cnt, ← h.bitlen]
      exact Memory.read_writeBytes_congr _ (fun k h64 hk => h.buf k h64 fun _ => hk) h64 (by omega) }

/-- The byte in place extends by one what the two engines have in common of the block (R153). -/
theorem Engine.Agree.placeByte (m : LenMode) (x : Byte) (hi : e.stage = .idle) :
    Engine.Agree (e.placeByte m x) (f.placeByte m x) :=
  { h with
    cnt := by simp [Engine.placeByte, h.cnt]
    bitlen := by simp [Engine.placeByte, h.bitlen]
    lenOvf := by simp [Engine.placeByte, h.bitlen, h.lenOvf]
    buf := fun k h64 hk => by
      rw [Engine.placeByte_buf, Engine.placeByte_buf, ← h.cnt]
      exact Memory.read_writeBytes_congr [x] (fun k h64 hk => h.buf k h64 fun _ => hk) h64 (hk hi) }

/-- A block that is full after the byte starts, and then all 64 bytes are in place (R153, R157). -/
theorem Engine.Agree.absorbByte (m : LenMode) (x : Byte) (hi : e.stage = .idle) :
    Engine.Agree (absorbByte m x e) (absorbByte m x f) := by
  have hplace := h.placeByte m x hi
  rw [absorbByte_eq, absorbByte_eq, ← hplace.cnt]
  split
  · rename_i hfull
    exact hplace.startBlock fun k h64 => hplace.buf k h64 fun _ => hfull ▸ h64
  · exact hplace

omit h in
/-- Absorbing a list from an idle engine with room: byte by byte until the block fills or the bytes end (R158). -/
theorem Engine.Agree.absorbList (m : LenMode) (bs : List Byte) {e f : Engine} (h : Engine.Agree e f)
    (hi : e.stage = .idle) (hc : e.cnt < 64) : Engine.Agree (absorbList m bs e) (absorbList m bs f) := by
  induction bs generalizing e f with
  | nil => exact h.withPend []
  | cons x bs ih =>
    have hbyte := (h.withPend []).absorbByte m x hi
    rcases Nat.lt_or_eq_of_le (Nat.le_of_lt_succ hc) with hlt | h63
    · rw [absorbList_cons_room hi hlt, absorbList_cons_room (h.stage ▸ hi) (h.cnt ▸ hlt)]
      refine ih hbyte ?_ ?_
      · rw [(absorbByte_stay (show (e.withPend []).cnt ≠ 63 by simp; omega)).1]
        exact hi
      · rw [absorbByte_cnt, Engine.withPend_cnt]
        omega
    · rw [absorbList_cons_fill h63, absorbList_cons_fill (h.cnt ▸ h63)]
      exact hbyte.withPend bs

/-- Once a block is folded no byte of it is in place any more (R160). -/
theorem Engine.Agree.foldBlock (hb : e.stage ≠ .idle) : Engine.Agree (foldBlock e) (foldBlock f) :=
  { h with
    acc := by simp [h.acc, h.wv hb]
    cnt := rfl
    stage := rfl
    buf := fun k h64 _ => h.block hb k h64
    wv := fun hn => absurd rfl hn
    rnd := fun hn => absurd rfl hn }

/-- Each of the three ends of an accumulation step is the same end for both engines (R160). -/
theorem Engine.Agree.engineAccum (m : LenMode) (hb : e.stage ≠ .idle) :
    Engine.Agree (engineAccum m e) (engineAccum m f) := by
  have hfold := h.foldBlock hb
  by_cases hm : e.mode = .finalizing
  · cases hf : e.fin2 with
    | true =>
      rw [engineAccum_secondBlock hm hf, engineAccum_secondBlock (h.mode ▸ hm) (h.fin2 ▸ hf), ← h.lenf]
      have hbuf (k : Nat) (h64 : k < 64) : Memory.read (Memory.writeBytes e.buf 0 (secondBlock e.lenf)) k =
          Memory.read (Memory.writeBytes f.buf 0 (secondBlock e.lenf)) k :=
        Memory.read_writeBytes_congr _ (fun k h64 _ => h.block hb k h64) h64 (by rw [secondBlock_length]; omega)
      exact Engine.Agree.startBlock { hfold with buf := fun k h64 _ => hbuf k h64, fin2 := rfl } hbuf
    | false =>
      rw [engineAccum_done hm hf, engineAccum_done (h.mode ▸ hm) (h.fin2 ▸ hf)]
      exact { hfold with mode := rfl }
  · rw [engineAccum_absorb hm, engineAccum_absorb (h.mode ▸ hm), ← h.pend]
    exact hfold.absorbList m _ rfl (by simp)

/-- A round computes from the working variables, RND and the block, which agree while busy (R159). -/
theorem Engine.Agree.engineRound (hb : e.stage ≠ .idle) : Engine.Agree (engineRound e) (engineRound f) := by
  have hrnd : e.rnd = f.rnd := h.rnd hb
  exact {
    acc := by simpa using h.acc
    cnt := by simpa using h.cnt
    bitlen := by simpa using h.bitlen
    pend := by simpa using h.pend
    stage := by rw [engineRound_stage, engineRound_stage, hrnd, h.stage]
    mode := by simpa using h.mode
    fin2 := by simpa using h.fin2
    lenf := by simpa using h.lenf
    errCmd := by simpa using h.errCmd
    errBusy := by simpa using h.errBusy
    lenOvf := by simpa using h.lenOvf
    data := by simpa using h.data
    buf := fun k h64 _ => by simpa using h.block hb k h64
    wv := fun _ => by
      rw [engineRound_wv, engineRound_wv, ← hrnd, ← h.wv hb]
      exact round_congr (h.block hb) e.rnd.isLt e.wv
    rnd := fun _ => by rw [engineRound_rnd, engineRound_rnd, hrnd] }

end Operations

/-! ### The answers of a command, of the bus and of an event -/

theorem Engine.Agree.refl (e : Engine) : Engine.Agree e e :=
  ⟨rfl, rfl, rfl, rfl, rfl, rfl, rfl, rfl, rfl, rfl, rfl, rfl, fun _ _ _ => rfl, fun _ => rfl, fun _ => rfl⟩

theorem Agree.withEngine {s t : State} (h : Agree s t) {e f : Engine} (he : Engine.Agree e f) :
    Agree (s.withEngine e) (t.withEngine f) :=
  { h with engine := he }

theorem Agree.withProg {s t : State} (h : Agree s t) (p : List HostOp) : Agree (s.withProg p) (t.withProg p) :=
  { h with prog := rfl }

theorem Agree.withTemps {s t : State} (h : Agree s t) (ts : List (Nat × Word)) :
    Agree (s.withTemps ts) (t.withTemps ts) :=
  { h with temps := rfl }

theorem Agree.withTurns {s t : State} (h : Agree s t) (ts : List Turn) : Agree (s.withTurns ts) (t.withTurns ts) :=
  { h with turns := rfl }

section Answers

variable {s t : State} (h : Agree s t)
include h

theorem Agree.regRead_eq (r : Reg) : regRead s.config s.engine r = regRead t.config t.engine r := by
  rw [← h.config, h.engine.regRead_eq]

theorem Agree.nextTurn_eq : nextTurn s = nextTurn t := by
  rw [nextTurn, nextTurn, h.turns, h.engine.busy_eq]

/-! The checks of R152 find the same flags, so what stands behind a check need agree only where it is reached. -/

theorem Agree.unlessBusy {j k : Answer} (hk : s.engine.stage = .idle → AnswersAgree j k) :
    AnswersAgree (unlessBusy s j) (unlessBusy t k) := by
  by_cases hi : s.engine.stage = .idle
  · rw [unlessBusy_idle _ hi, unlessBusy_idle _ (h.engine.stage ▸ hi)]
    exact hk hi
  · rw [unlessBusy_busy _ hi, unlessBusy_busy _ (h.engine.stage ▸ hi)]
    exact h.withEngine h.engine.setErrBusy

theorem Agree.unlessDone {j k : Answer} (hk : AnswersAgree j k) :
    AnswersAgree (unlessDone s j) (unlessDone t k) := by
  by_cases hm : s.engine.mode = .done
  · rw [unlessDone_done _ hm, unlessDone_done _ (h.engine.mode ▸ hm)]
    exact h.withEngine h.engine.setErrCmd
  · rw [unlessDone_open _ hm, unlessDone_open _ (h.engine.mode ▸ hm)]
    exact hk

theorem Agree.requireRoom {j k : Answer} (hk : s.engine.cnt < 64 → AnswersAgree j k) :
    AnswersAgree (requireRoom s j) (requireRoom t k) := by
  by_cases hc : s.engine.cnt < 64
  · rw [requireRoom_room _ hc, requireRoom_room _ (h.engine.cnt ▸ hc)]
    exact hk hc
  · rw [requireRoom_full _ (by omega), requireRoom_full _ (by rw [← h.engine.cnt]; omega)]
    exact rfl

theorem Agree.exec (i : Instr) : AnswersAgree (exec i s) (exec i t) := by
  cases i with
  | init => exact h.unlessBusy fun _ => h.withEngine h.engine.initCommand
  | push nb =>
    refine h.unlessBusy fun hi => h.unlessDone <| h.requireRoom fun hc => h.withEngine ?_
    rw [pushCommand, pushCommand, ← h.config, ← h.engine.data]
    exact h.engine.absorbList _ _ hi hc
  | final =>
    refine h.unlessBusy fun _ => h.unlessDone <| h.requireRoom fun hc => h.withEngine ?_
    rw [← h.config]
    exact h.engine.finalCommand _ hc

theorem Agree.command (v : Word) : AnswersAgree (command v s) (command v t) := by
  unfold Machine.command
  cases decode v with
  | command i => exact h.exec i
  | illegal why => exact h.unlessBusy fun _ => h.withEngine h.engine.setErrCmd

theorem Agree.regWrite (r : Reg) (v : Word) : AnswersAgree (regWrite r v s) (regWrite r v t) := by
  cases r with
  | cmd => exact h.command v
  | data => exact h.withEngine (h.engine.withData v)
  | status | cfg | digest0 | digest1 | digest2 | digest3 => exact h

omit h in
/-- The bus stops an access for the same reason whatever stands behind it. -/
theorem AnswersAgree.route (c : Config) (a : Access) {j k : Reg → Answer} (hk : ∀ r, AnswersAgree (j r) (k r)) :
    AnswersAgree (route c a j) (route c a k) := by
  unfold Machine.route
  split
  · exact rfl
  · split
    · exact rfl
    · split
      · exact rfl
      · cases regAt (a.addr - c.engineBase) with
        | none => exact rfl
        | some r => exact hk r

theorem Agree.hostTurn : AnswersAgree (hostTurn s) (hostTurn t) := by
  unfold Machine.hostTurn
  rw [← h.prog, ← h.config]
  cases s.prog with
  | nil => exact h
  | cons op p =>
    cases op with
    | read a n =>
      refine .route _ a fun r => ?_
      rw [h.engine.regRead_eq, h.temps]
      exact (h.withProg p).withTemps _
    | write a v => exact .route _ a fun r => (h.withProg p).regWrite r v
    | poll a mask val =>
      refine .route _ a fun r => ?_
      rw [h.engine.regRead_eq]
      split
      · exact h.withProg p
      · exact h

theorem Agree.engineTurn : AnswersAgree (engineTurn s) (engineTurn t) := by
  unfold Machine.engineTurn
  rw [← h.config]
  cases hs : s.engine.stage with
  | idle =>
    rw [engineStep_idle hs, engineStep_idle (h.engine.stage ▸ hs)]
    exact h
  | rounds =>
    rw [engineStep_rounds hs, engineStep_rounds (h.engine.stage ▸ hs)]
    exact h.withEngine (h.engine.engineRound (by simp [hs]))
  | accum =>
    rw [engineStep_accum hs, engineStep_accum (h.engine.stage ▸ hs)]
    exact h.withEngine (h.engine.engineAccum _ (by simp [hs]))

theorem Agree.takeTurn (n : Turn) : AnswersAgree (takeTurn n s) (takeTurn n t) := by
  cases n with
  | host => exact h.hostTurn
  | engine => exact h.engineTurn
  | reset => exact h.withEngine (.refl _)

end Answers

/-- Settles O54: both states take the same turn, and each kind of turn keeps the agreement. -/
theorem unspecifiedElementsStayHidden : Obligations.UnspecifiedElementsStayHidden := by
  intro s t h
  rw [step, step, advance, advance, ← h.nextTurn_eq, ← h.turns]
  exact (h.withTurns s.turns.tail).takeTurn (nextTurn s)

end Sys2Proof.Machine
end

section
/-! PROOFS. What the state shows: the bits of STATUS (R29), the digest window (R33), the counters against the message (R39.6),
the values of reset (R40), and the two ROMs (R34, R35). -/

namespace Sys2Proof.Machine

/-! ### STATUS (R29) -/

/-- A flag stands at its bit and nowhere else. -/
theorem flagBit_getLsbD (b : Bool) {k : Nat} (hk : k < 32) (i : Nat) :
    (flagBit b k).getLsbD i = (decide (i = k) && b) := by
  by_cases hi : i = k
  · subst hi
    simp [flagBit, hk]
  · rw [flagBit, BitVec.getLsbD_shiftLeft]
    by_cases hlt : i < k
    · simp [hlt, hi]
    · simp [BitVec.getLsbD_setWidth, hi, show i - k ≠ 0 by omega]

/-- Settles O18: each flag's word has one bit, so STATUS has each flag at its own. -/
theorem statusBitsAreTheFlags : Obligations.StatusBitsAreTheFlags := by
  intro e k
  have hbits : e.status.getLsbD k = (decide (k = 4) && e.lenOvf || decide (k = 3) && e.errBusy ||
      decide (k = 2) && e.errCmd || decide (k = 1) && e.isDone || decide (k = 0) && e.busy) := by
    simp only [Engine.status, BitVec.getLsbD_or, flagBit_getLsbD _ (show 0 < 32 by decide),
      flagBit_getLsbD _ (show 1 < 32 by decide), flagBit_getLsbD _ (show 2 < 32 by decide),
      flagBit_getLsbD _ (show 3 < 32 by decide), flagBit_getLsbD _ (show 4 < 32 by decide)]
  rw [hbits]
  split_ifs with h0 h1 h2 h3 h4
  · simp [h0, Engine.busy]
  · simp [h1, Engine.isDone]
  · simp [h2]
  · simp [h3]
  · simp [h4]
  · simp [h0, h1, h2, h3, h4]

/-! ### The digest window (R33, R53, R143) -/

/-- Each register holds its four bytes in little-endian order (R53). -/
theorem windowByte_regOffset (c : Config) (e : Engine) (r : Reg) {j : Nat} (hj : j < 4) :
    windowByte c e (regOffset r + j) = some (byteOf (regRead c e r) j) := by
  have h4 : regOffset r % 4 = 0 := (regAt_isSome_iff (regOffset_lt r)).mp ⟨r, regAt_regOffset r⟩
  rw [windowByte, show 4 * ((regOffset r + j) / 4) = regOffset r by omega, regAt_regOffset,
    show (regOffset r + j) % 4 = j by omega]
  rfl

theorem byteOf_zero (j : Nat) : byteOf (0x00000000 : Word) j = 0x00 := by
  simp [byteOf]

/-- A byte of a digest register is the accumulator's once DONE = 1, else zero (R33). -/
theorem windowByte_digest (c : Config) {e : Engine} (r : Reg) {acc : Word} (hr : regRead c e r = digestWord e acc)
    {j : Nat} (hj : j < 4) {x : Option Byte} (hx : x = some (byteOf acc j)) :
    windowByte c e (regOffset r + j) = if e.mode = .done then x else some 0x00 := by
  rw [windowByte_regOffset c e r hj, hr, digestWord]
  by_cases hd : e.mode = .done
  · rw [if_pos ((Engine.isDone_eq_true e).mpr hd), if_pos hd, hx]
  · rw [if_neg (mt (Engine.isDone_eq_true e).mp hd), if_neg hd, byteOf_zero]

/-- SERIALIZE puts the four words one after another, each in little-endian order (R143). -/
theorem serialize_getElem? (S : Quad) {j : Nat} (hj : j < 4) :
    (serialize S)[4 * 0 + j]? = some (byteOf S.a j) ∧ (serialize S)[4 * 1 + j]? = some (byteOf S.b j) ∧
    (serialize S)[4 * 2 + j]? = some (byteOf S.c j) ∧ (serialize S)[4 * 3 + j]? = some (byteOf S.d j) := by
  interval_cases j <;> exact ⟨rfl, rfl, rfl, rfl⟩

/-- Settles O21: by the register that holds byte k. -/
theorem digestWindowHoldsSerialisedState : Obligations.DigestWindowHoldsSerialisedState := by
  intro c e k hk
  obtain ⟨q, j, hj, rfl⟩ : ∃ q j, j < 4 ∧ k = 4 * q + j := ⟨k / 4, k % 4, by omega, by omega⟩
  have hq : q < 4 := by omega
  obtain ⟨h0, h1, h2, h3⟩ := serialize_getElem? e.acc hj
  rw [← Nat.add_assoc]
  interval_cases q
  · exact windowByte_digest c .digest0 rfl hj h0
  · exact windowByte_digest c .digest1 rfl hj h1
  · exact windowByte_digest c .digest2 rfl hj h2
  · exact windowByte_digest c .digest3 rfl hj h3

/-! ### The counters (R39.6) -/

/-- The block of PAD(m) that is due once FINAL is accepted: the marker's, or the second one after it (R95, R99). -/
theorem paddingBlock_index (L : Nat) (fin2 : Bool) (h : fin2 = true → 56 ≤ L % 64) :
    (blockCount L - if fin2 then 2 else 1) =
      if fin2 = true ∨ L % 64 ≤ 55 then L / 64 else L / 64 + 1 := by
  rw [blockCount_eq]
  cases fin2 with
  | true => simp [Nat.not_le.mpr (show 55 < L % 64 from h rfl)]
  | false => by_cases h55 : L % 64 ≤ 55 <;> simp [h55]

section Tracks

variable {lm : LenMode} {m : List Byte} {e : Engine}

theorem Tracks.bitlen_toNat (h : Tracks lm m e) : e.bitlen.toNat = 8 * absorbedCount m e % 2 ^ 64 := by
  rw [h.bitlen, BitVec.toNat_ofNat]

theorem Tracks.cnt_of_idle (h : Tracks lm m e) (hm : e.mode = .absorb) (hs : e.stage = .idle) :
    e.cnt = absorbedCount m e % 64 := by
  have hblock := h.block
  simp only [BlockOk, hm, hs] at hblock
  exact hblock.1

theorem Tracks.full_block (h : Tracks lm m e) (hm : e.mode = .absorb) (hs : e.stage ≠ .idle) :
    absorbedCount m e % 64 = 0 := by
  have hblock := h.block
  cases hst : e.stage with
  | idle => exact absurd hst hs
  | rounds | accum =>
    simp only [BlockOk, hm, hst] at hblock
    exact hblock.2.1

theorem Tracks.padding_block (h : Tracks lm m e) (hm : e.mode = .finalizing) :
    (e.fin2 = true → 56 ≤ m.length % 64) ∧
      AtBlock (byteAt (pad lm m)) (if e.fin2 = true ∨ m.length % 64 ≤ 55 then m.length / 64 else m.length / 64 + 1) e := by
  have hblock := h.block
  simp only [BlockOk, hm] at hblock
  obtain ⟨-, h56, hat⟩ := hblock
  rw [paddingBlock_index _ _ h56] at hat
  exact ⟨h56, hat⟩

/-- Once FINAL is accepted nothing waits in PEND, so the whole message is absorbed (R39.5). -/
theorem absorbedCount_of_finalizing (h : EngineInv e) (hm : e.mode = .finalizing) : absorbedCount m e = m.length := by
  rw [absorbedCount, h.pend_nil (by simp [hm]), List.length_nil, Nat.sub_zero]

end Tracks

/-- Settles O56: BITLEN and the block come from Tracks, CNT from the invariant, which counts by BITLEN. -/
theorem countersCountAbsorbedBytes : Obligations.CountersCountAbsorbedBytes := by
  intro s m hinv htr
  have hbits := htr.bitlen_toNat
  refine ⟨hbits, htr.cnt_of_idle, fun hm hs => ⟨hinv.engine.full hs hm, htr.full_block hm hs⟩, fun hm => ?_⟩
  have hn : absorbedCount m s.engine = m.length := absorbedCount_of_finalizing hinv.engine hm
  obtain ⟨h56, hat⟩ := htr.padding_block hm
  obtain ⟨-, -, hmarker, hsecond⟩ := hinv.engine.countFinal hm
  have hmod : s.engine.bitlen.toNat / 8 % 64 = m.length % 64 := by omega
  rw [hmod] at hmarker hsecond
  rw [hn]
  refine ⟨rfl, h56, fun hfirst => ⟨hmarker hfirst, ?_⟩, fun hf hlast => ⟨hsecond hf hlast, ?_⟩⟩
  · rwa [if_pos hfirst] at hat
  · rwa [if_neg (by simp [hf]; omega)] at hat

/-! ### Reset (R40) and the ROMs (R34, R35) -/

/-- Settles O1: each element is a field of Engine.reset, or the function of these fields that STATUS and CFG are. -/
theorem resetHoldsStatedValues : Obligations.ResetHoldsStatedValues :=
  ⟨rfl, rfl, rfl, rfl, rfl, rfl, rfl, rfl, rfl, rfl, rfl, rfl, rfl, rfl, rfl, rfl, fun _ => ⟨rfl, rfl⟩⟩

/-- Settles O58: row by row of the cycle table; the range is `rAt_range`. -/
theorem rotationRomHoldsItsCycles : Obligations.RotationRomHoldsItsCycles := by
  refine ⟨fun k hk => ?_, fun i hi => rAt_range hi⟩
  interval_cases k <;> decide

/-- Settles O59: the 16 rows, one by one. -/
theorem roundConstantRomHoldsItsTable : Obligations.RoundConstantRomHoldsItsTable := by
  intro i hi
  interval_cases i <;> rfl

end Sys2Proof.Machine
end

section
/-! PROOFS. The bus by width, window and alignment (R52, R58), and what one event may do to the host's statements,
temporaries and turns (R51, R59). -/

namespace Sys2Proof.Machine

/-! ### What the bus answers (R52) -/

section Route

variable {c : Config} {a : Access}

theorem route_wide (k : Reg → Answer) (hw : a.width = .wide) : route c a k = .refused .wideAccess := by
  rw [route, if_pos hw]

theorem route_outside (k : Reg → Answer) (hw : a.width ≠ .wide)
    (ho : ¬ (c.engineBase ≤ a.addr ∧ a.addr < c.engineBase + 32)) : route c a k = .refused .outsideWindow := by
  rw [route, if_neg hw, if_pos (by omega)]

theorem regAccess_aligned (base : Nat) (r : Reg) : ((regAccess base r).addr - base) % 4 = 0 := by
  rw [regAccess, Nat.add_sub_cancel_left]
  exact (regAt_isSome_iff (regOffset_lt r)).mp ⟨r, regAt_regOffset r⟩

/-- Of the bus's four answers only BUS_ERR is left for a narrow or misaligned access of the window. -/
theorem route_busErr (k : Reg → Answer) (hw : a.width ≠ .wide)
    (hin : c.engineBase ≤ a.addr ∧ a.addr < c.engineBase + 32)
    (hbad : a.width ≠ .word ∨ (a.addr - c.engineBase) % 4 ≠ 0) :
    route c a k = .fault (.busErr (a.addr - c.engineBase)) := by
  rcases route_cases c a k with ⟨h, -⟩ | ⟨-, h, -⟩ | ⟨-, -, -, h⟩ | ⟨r, rfl, -⟩
  · exact absurd h hw
  · exact absurd hin h
  · exact h
  · exact absurd (regAccess_aligned c.engineBase r) (hbad.resolve_left fun h => h rfl)

/-- An aligned 32-bit access of the window is one of a register (R58). -/
theorem eq_regAccess_of_aligned (hword : a.width = .word)
    (hin : c.engineBase ≤ a.addr ∧ a.addr < c.engineBase + 32) (h4 : (a.addr - c.engineBase) % 4 = 0) :
    ∃ r, a = regAccess c.engineBase r := by
  obtain ⟨r, hr⟩ := (regAt_isSome_iff (show a.addr - c.engineBase < 32 by omega)).mpr h4
  have haddr : a.addr = c.engineBase + regOffset r := by
    have := regOffset_of_regAt hr
    omega
  obtain ⟨w, addr⟩ := a
  exact ⟨r, by rw [regAccess, ← hword, ← haddr]⟩

end Route

/-! ### One host transaction (R51) -/

/-- What a statement of the host does once the bus lets it reach register r: `p` are the statements after it. -/
def transaction (s : State) (p : List HostOp) (op : HostOp) (r : Reg) : Answer :=
  match op with
  | .read _ n => .next ((s.withProg p).withTemps (loadTemp s.temps n (regRead s.config s.engine r)))
  | .write _ v => regWrite r v (s.withProg p)
  | .poll _ mask val => if regRead s.config s.engine r &&& mask = val then .next (s.withProg p) else .next s

/-- A host turn puts the access of its statement on the bus. -/
theorem step_transaction {s : State} {op : HostOp} {p : List HostOp} (h : HostMoves s op p) :
    step s = route s.config (accessOf op) (transaction (s.withTurns s.turns.tail) p op) := by
  rw [step_host h.1, hostTurn, State.withTurns_prog, h.2]
  cases op with
  | read | write | poll => rfl

/-- BUSY drops a word by a next state, so what it lets through decides (R152). -/
theorem unlessBusy_next {s : State} {k : Answer} (hk : s.engine.stage = .idle → ∃ t, k = .next t) :
    ∃ t, unlessBusy s k = .next t := by
  by_cases hi : s.engine.stage = .idle
  · rw [unlessBusy_idle _ hi]
    exact hk hi
  · exact ⟨_, unlessBusy_busy _ hi⟩

section Completes

variable {s : State} (hroom : s.engine.stage = .idle → s.engine.cnt < 64)
include hroom

/-- PUSH and FINAL: only a full BUF stops them (R153's precondition). -/
theorem checked_next (t : State) : ∃ u, unlessBusy s (unlessDone s (requireRoom s (.next t))) = .next u :=
  unlessBusy_next fun hi => by
    rw [requireRoom_room _ (hroom hi)]
    by_cases hm : s.engine.mode = .done
    · exact ⟨_, unlessDone_done _ hm⟩
    · exact ⟨_, unlessDone_open _ hm⟩

theorem exec_next (i : Instr) : ∃ t, exec i s = .next t := by
  cases i with
  | init => exact unlessBusy_next fun _ => ⟨_, rfl⟩
  | push | final => exact checked_next hroom _

theorem command_next (v : Word) : ∃ t, command v s = .next t := by
  unfold command
  cases decode v with
  | command i => exact exec_next hroom i
  | illegal why => exact unlessBusy_next fun _ => ⟨_, rfl⟩

theorem regWrite_next (r : Reg) (v : Word) : ∃ t, regWrite r v s = .next t := by
  cases r with
  | cmd => exact command_next hroom v
  | data | status | cfg | digest0 | digest1 | digest2 | digest3 => exact ⟨_, rfl⟩

theorem transaction_next (p : List HostOp) (op : HostOp) (r : Reg) : ∃ t, transaction s p op r = .next t := by
  cases op with
  | read a n => exact ⟨_, rfl⟩
  | write a v => exact regWrite_next (s := s.withProg p) hroom r v
  | poll a mask val =>
    by_cases hv : regRead s.config s.engine r &&& mask = val
    · exact ⟨_, if_pos hv⟩
    · exact ⟨_, if_neg hv⟩

end Completes

/-- Settles O20: the answer is the bus's, and an access that reaches its register completes because an idle engine has
room for a byte (R39.1). -/
theorem busAnswersByWidthAndAlignment : Obligations.BusAnswersByWidthAndAlignment := by
  intro s op p hmoves w a base inside
  rw [step_transaction hmoves]
  refine ⟨route_wide _, route_outside _, route_busErr _, fun hword hin h4 hinv => ?_⟩
  obtain ⟨r, hr⟩ := eq_regAccess_of_aligned hword hin h4
  have hroom (hi : s.engine.stage = .idle) : s.engine.cnt < 64 := Nat.lt_succ_of_le (hinv.engine.idle hi).1
  rw [hr, route_regAccess]
  exact transaction_next (s := s.withTurns s.turns.tail) hroom p op r

/-! ### One event, one agent (R59) -/

section OneAgent

variable {s t : State} (h : Event s t)
include h

/-- Every event starts from the state with its turn used up, and none writes the list of turns. -/
theorem Event.turns_eq : t.turns = s.turns.tail := by
  cases h with
  | reset | engineIdle | round | accum | hostIdle | read | pollHit | pollMiss | writeData | writeIgnored => rfl
  | command v p t ht hp he => exact he.sameHost.turns

/-- An engine turn and a reset write the engine only (log entry 14). -/
theorem Event.host_eq (hn : nextTurn s ≠ .host) : t.prog = s.prog ∧ t.temps = s.temps := by
  cases h with
  | reset | engineIdle | round | accum => exact ⟨rfl, rfl⟩
  | hostIdle | read | pollHit | pollMiss | writeData | writeIgnored | command => contradiction

/-- Only a host turn takes a statement off the list, and then the first one. -/
theorem Event.prog_eq_or_tail : t.prog = s.prog ∨ t.prog = s.prog.tail := by
  cases h with
  | reset | engineIdle | round | accum | hostIdle | pollMiss => exact .inl rfl
  | read r n p ht hp | pollHit r mask val p ht hp | writeData v p ht hp | writeIgnored r v p ht hc hd hp =>
    exact .inr (by rw [hp]; rfl)
  | command v p t ht hp he => exact .inr (by rw [hp]; exact he.sameHost.prog)

/-- Only a read loads a temporary, the one it names. -/
theorem Event.temps_eq_or_load :
    t.temps = s.temps ∨ ∃ a n x p, s.prog = .read a n :: p ∧ t.temps = loadTemp s.temps n x := by
  cases h with
  | read r n p ht hp => exact .inr ⟨_, n, _, p, hp, rfl⟩
  | command v p t ht hp he => exact .inl he.sameHost.temps
  | reset | engineIdle | round | accum | hostIdle | pollHit | pollMiss | writeData | writeIgnored => exact .inl rfl

end OneAgent

/-- Settles O44: each part by what an event can do. -/
theorem oneEventOneAgent : Obligations.OneEventOneAgent := by
  intro s t hst
  have h : Event s t := step_event hst
  exact ⟨h.turns_eq, h.host_eq, fun _ => ⟨h.prog_eq_or_tail, h.temps_eq_or_load⟩⟩

end Sys2Proof.Machine
end

section
/-! PROOFS. The command words: decode against encode, the six words that decode, and the opcode table's rows
(R71 to R74, R79). -/

namespace Sys2Proof

/-! ### Decode and encode (R71 to R74) -/

theorem decode_encode (i : Instr) : decode (encode i) = .command i := by
  cases i with
  | init | final => decide
  | push nb => simp [decode, encode, fieldRsv_formatC, fieldOpc_formatC, fieldNb_formatC]

/-- The tests of R74 that end in a command fix all three fields, so the word is the command's. -/
theorem eq_encode_of_decode {v : Word} {i : Instr} (h : decode v = .command i) : v = encode i := by
  unfold decode at h
  split_ifs at h with hrsv hopc hnb hopc hopc hnb
  · obtain rfl : Instr.init = i := by simpa using h
    exact (eq_formatC_iff v 0 0x1).mpr ⟨not_not.mp hrsv, hnb, hopc⟩
  · obtain rfl : Instr.push (fieldNb v) = i := by simpa using h
    exact (eq_formatC_iff v (fieldNb v) 0x2).mpr ⟨not_not.mp hrsv, rfl, hopc⟩
  · obtain rfl : Instr.final = i := by simpa using h
    exact (eq_formatC_iff v 0 0x3).mpr ⟨not_not.mp hrsv, hnb, hopc⟩

/-- Settles O4: one direction is the round trip, the other reads the fields off the tests of R74. -/
theorem decodeExactlyInvertsEncode : Obligations.DecodeExactlyInvertsEncode :=
  fun _ i => ⟨eq_encode_of_decode, fun h => h ▸ decode_encode i⟩

/-- The ILLEGAL words are those that encode no command (R74). -/
theorem decode_illegal_iff (v : Word) : (∃ why, decode v = .illegal why) ↔ ∀ i, v ≠ encode i := by
  constructor
  · rintro ⟨why, hwhy⟩ i rfl
    rw [decode_encode] at hwhy
    cases hwhy
  · intro hne
    cases hd : decode v with
    | illegal why => exact ⟨why, rfl⟩
    | command i => exact absurd (eq_encode_of_decode hd) (hne i)

/-! ### The six words (R74) -/

/-- Every command, PUSH with each of its four values of NB (R72). -/
def allCommands : List Instr := [.init, .push 0, .push 1, .push 2, .push 3, .final]

theorem mem_allCommands (i : Instr) : i ∈ allCommands := by
  cases i with
  | init | final => decide
  | push nb => revert nb; decide

theorem mem_map_encode_pair_iff (v : Word) (i : Instr) :
    (v, i) ∈ allCommands.map (fun j => (encode j, j)) ↔ v = encode i := by
  simp [mem_allCommands, eq_comm]

theorem not_mem_map_encode_iff (v : Word) : v ∉ allCommands.map encode ↔ ∀ i, v ≠ encode i := by
  simp [mem_allCommands, eq_comm]

/-- Settles O5: the six pairs are the commands with their encodings. -/
theorem exactlySixWordsDecode : Obligations.ExactlySixWordsDecode := by
  intro v
  have hpair (i : Instr) : decode v = .command i ↔ (v, i) ∈ allCommands.map fun j => (encode j, j) :=
    (decodeExactlyInvertsEncode v i).trans (mem_map_encode_pair_iff v i).symm
  have hillegal : (∃ why, decode v = .illegal why) ↔ v ∉ allCommands.map encode :=
    (decode_illegal_iff v).trans (not_mem_map_encode_iff v).symm
  exact ⟨hpair, hillegal⟩

/-- Settles O7: three of the words are encodings, and the other three fail one test of R74 each. -/
theorem writtenOutWordsDecode : Obligations.WrittenOutWordsDecode :=
  ⟨decode_encode .init, decode_encode (.push 2), decode_encode .final, by decide, by decide, by decide⟩

/-! ### The rows of the opcode table (R79) -/

/-- A mask whose bits are all set in a field leaves that field of the word. -/
theorem extractLsb'_and_of_allOnes {mask : Word} {start len : Nat} (w : Word)
    (hmask : mask.extractLsb' start len = BitVec.allOnes len) :
    (w &&& mask).extractLsb' start len = w.extractLsb' start len := by
  rw [BitVec.extractLsb'_and, hmask, BitVec.and_allOnes]

/-- A row whose mask has every bit set selects one word. -/
theorem and_fullMask_eq_encode_iff (w : Word) (i : Instr) :
    w &&& 0xFFFFFFFF = encode i ↔ decode w = .command i := by
  have hmask : w &&& 0xFFFFFFFF = w := BitVec.and_allOnes
  rw [hmask, decodeExactlyInvertsEncode]

/-- PUSH's mask leaves out NB only, so its row fixes RSV and OPC. -/
theorem and_pushMask_eq_iff (w : Word) :
    w &&& 0xFFFFFFCF = 0x00000002 ↔ ∃ nb, decode w = .command (.push nb) := by
  constructor
  · intro h
    have hrsv : fieldRsv w = 0 :=
      calc fieldRsv w = fieldRsv (w &&& 0xFFFFFFCF) := (extractLsb'_and_of_allOnes w (by decide)).symm
        _ = 0 := by rw [h]; decide
    have hopc : fieldOpc w = 0x2 :=
      calc fieldOpc w = fieldOpc (w &&& 0xFFFFFFCF) := (extractLsb'_and_of_allOnes w (by decide)).symm
        _ = 0x2 := by rw [h]; decide
    have hw : w = encode (.push (fieldNb w)) := (eq_formatC_iff _ _ _).mpr ⟨hrsv, rfl, hopc⟩
    exact ⟨fieldNb w, (decodeExactlyInvertsEncode _ _).mpr hw⟩
  · rintro ⟨nb, hnb⟩
    obtain ⟨-, -, hrow⟩ := Laws.Encoding.push nb
    rw [eq_encode_of_decode hnb]
    exact hrow

/-- An answer that is the command of no row is ILLEGAL. -/
theorem Decoded.no_row_iff (d : Decoded) :
    (d ≠ .command .init ∧ (¬ ∃ nb, d = .command (.push nb)) ∧ d ≠ .command .final) ↔ ∃ why, d = .illegal why := by
  cases d with
  | illegal why => simp
  | command i => cases i with
    | init | push nb | final => simp

/-- Settles O6: each row by its mask; a word of no row is then ILLEGAL by what its decoding is not. -/
theorem opcodeTableRowsSelectCommands : Obligations.OpcodeTableRowsSelectCommands := by
  intro w
  have hinit : w &&& 0xFFFFFFFF = 0x00000001 ↔ decode w = .command .init := and_fullMask_eq_encode_iff w .init
  have hpush := and_pushMask_eq_iff w
  have hfinal : w &&& 0xFFFFFFFF = 0x00000003 ↔ decode w = .command .final := and_fullMask_eq_encode_iff w .final
  refine ⟨hinit, hpush, hfinal, ?_⟩
  rw [← Decoded.no_row_iff, ne_eq, ne_eq, ne_eq, hinit, hpush, hfinal]

end Sys2Proof
end

section
/-! PROOFS. What a word offered to CMD does (R75, R151, R152), and the host's poll and `push n` (R77, R78). -/

namespace Sys2Proof.Machine

/-! ### A word offered to CMD (R152) -/

/-- The event that offers a word is COMMAND of it, with the statement and the turn used up. -/
theorem step_of_commandOffered {s : State} {v : Word} (h : commandOffered s = some v) :
    step s = command v ((s.withTurns s.turns.tail).withProg s.prog.tail) := by
  obtain ⟨p, hmoves⟩ := commandOffered_eq_some.mp h
  have htail : s.prog.tail = p := by rw [hmoves.2, List.tail_cons]
  rw [step_write hmoves, htail]
  rfl

theorem command_of_decode {v : Word} {i : Instr} (h : decode v = .command i) (s : State) :
    command v s = exec i s := by
  rw [command, h]

/-- Settles O8: the offered word is decoded and executed. -/
theorem stepExecutesOfferedCommand : Obligations.StepExecutesOfferedCommand := by
  intro s v i ho hd
  rw [step_of_commandOffered ho, command_of_decode hd]
  rfl

/-- An ILLEGAL word while BUSY = 0 (R75). -/
theorem command_of_illegal {v : Word} (h : ∃ why, decode v = .illegal why) {s : State}
    (hi : s.engine.stage = .idle) : command v s = .next (s.withEngine s.engine.setErrCmd) := by
  obtain ⟨why, hd⟩ := h
  rw [command, hd]
  exact unlessBusy_idle _ hi

/-- Settles O10: a word that encodes no command is ILLEGAL, and an idle engine rejects it. -/
theorem illegalWordOnlySetsErrCmd : Obligations.IllegalWordOnlySetsErrCmd := by
  intro s v ho hi hne
  have hcmd := command_of_illegal ((decode_illegal_iff v).mpr hne)
    (s := (s.withTurns s.turns.tail).withProg s.prog.tail) hi
  exact ⟨_, (step_of_commandOffered ho).trans hcmd, rfl, rfl, rfl, rfl, rfl⟩

/-! ### The host's statements (R77, R78) -/

/-- Settles O22: by whether the value read is the awaited one. -/
theorem pollRepeatsUntilValue : Obligations.PollRepeatsUntilValue := by
  intro s r mask val p hmoves
  rw [step_poll hmoves]
  by_cases hv : regRead s.config s.engine r &&& mask = val
  · rw [if_pos hv, if_pos hv]
    rfl
  · rw [if_neg hv, if_neg hv]
    rfl

/-- The byte counts that NB can name are 1 to 4 (R73). -/
theorem exists_pushCount_eq {n : Nat} (h1 : 1 ≤ n) (h4 : n ≤ 4) : ∃ nb, pushCount nb = n :=
  ⟨BitVec.ofNat 2 (n - 1), by rw [pushCount, BitVec.toNat_ofNat]; omega⟩

/-- `push n` puts n - 1 where R71 has NB, beside the opcode of PUSH. -/
theorem stmtPush_pushCount (nb : BitVec 2) : stmtPush (pushCount nb) = .wr .cmd (encode (.push nb)) := by
  rw [stmtPush, pushCount, Nat.add_sub_cancel, BitVec.ofNat_toNat, BitVec.or_comm]
  rfl

/-- Settles O23: every count that `push n` admits is the count of some NB. -/
theorem pseudoPushWritesItsCommandWord : Obligations.PseudoPushWritesItsCommandWord := by
  intro n hwf
  obtain ⟨h1, h4⟩ : 1 ≤ n ∧ n ≤ 4 := by simpa [Pseudo.wellFormed] using hwf
  obtain ⟨nb, rfl⟩ := exists_pushCount_eq h1 h4
  exact ⟨nb, rfl, congrArg (fun st => [st]) (stmtPush_pushCount nb)⟩

end Sys2Proof.Machine
end

section
/-! PROOFS. The padded length (R91, R95), the length field (R93), and PAD(m) byte by byte (R92). -/

namespace Sys2Proof.Machine

/-! ### The padded length (R91, R95) -/

theorem paddedLength_ge (L : Nat) : L + 9 ≤ paddedLength L := by
  unfold paddedLength blockCount
  omega

/-- Padding adds fewer than 64 bytes to the message, the marker and the length field. -/
theorem paddedLength_lt (L : Nat) : paddedLength L < L + 9 + 64 := by
  unfold paddedLength blockCount
  omega

theorem dvd_paddedLength (L : Nat) : 64 ∣ paddedLength L := Nat.dvd_mul_right 64 _

/-- Settles O27: two multiples of 64 less than 64 apart are equal. -/
theorem paddedLengthIsLeast : Obligations.PaddedLengthIsLeast := by
  refine fun L => ⟨dvd_paddedLength L, paddedLength_ge L, fun P hdvd hge => ?_⟩
  have hlt := paddedLength_lt L
  have hmul := dvd_paddedLength L
  omega

/-! ### The length field (R93) -/

theorem lenVal_trunc32_toNat (L : Nat) : (lenVal .trunc32 L).toNat = 8 * L % 2 ^ 32 := by
  simp only [lenVal, lengthField, BitVec.toNat_setWidth, BitVec.toNat_ofNat]
  omega

theorem lenVal_full64_toNat (L : Nat) : (lenVal .full64 L).toNat = 8 * L % 2 ^ 64 := by
  rw [lenVal, lengthField, BitVec.toNat_ofNat]

/-- Settles O29: below 2^32 neither modulus changes 8L. -/
theorem lengthFieldByMode : Obligations.LengthFieldByMode := by
  refine fun L => ⟨lenVal_trunc32_toNat L, lenVal_full64_toNat L, fun hlt => BitVec.eq_of_toNat_eq ?_⟩
  rw [lenVal_trunc32_toNat, lenVal_full64_toNat]
  omega

/-! ### PAD(m) (R92) -/

theorem pad_length (lm : LenMode) (m : List Byte) : (pad lm m).length = paddedLength m.length := by
  have hge := paddedLength_ge m.length
  simp only [pad, List.length_append, List.length_cons, List.length_replicate, le64_length]
  omega

/-- Settles O30: the padded length in blocks. -/
theorem paddingAddsOneOrTwoBlocks : Obligations.PaddingAddsOneOrTwoBlocks := by
  intro lm m
  rw [pad_length, paddedLength, blockCount_eq]

theorem le64_getElem? (v : DWord) {j : Nat} (h : j < 8) : (le64 v)[j]? = some (byteOf v j) := by
  interval_cases j <;> rfl

theorem pad_getElem?_message (lm : LenMode) (m : List Byte) {k : Nat} (h : k < m.length) :
    (pad lm m)[k]? = m[k]? := by
  rw [pad, List.getElem?_append_left h]

theorem pad_getElem?_marker (lm : LenMode) (m : List Byte) : (pad lm m)[m.length]? = some 0x80 := by
  rw [pad, List.getElem?_append_right (Nat.le_refl _), Nat.sub_self, List.getElem?_cons_zero]

/-- The bytes after the marker, counted from it. -/
theorem pad_getElem?_tail (lm : LenMode) (m : List Byte) (j : Nat) :
    (pad lm m)[m.length + 1 + j]? =
      (List.replicate (paddedLength m.length - m.length - 9) 0x00 ++ le64 (lenVal lm m.length))[j]? := by
  rw [pad, List.getElem?_append_right (by omega), show m.length + 1 + j - m.length = j + 1 by omega,
    List.getElem?_cons_succ]

theorem pad_getElem?_zero (lm : LenMode) (m : List Byte) {k : Nat} (hlow : m.length < k)
    (hhigh : k < paddedLength m.length - 8) : (pad lm m)[k]? = some 0x00 := by
  obtain ⟨j, rfl⟩ : ∃ j, k = m.length + 1 + j := ⟨k - m.length - 1, by omega⟩
  have hj : j < paddedLength m.length - m.length - 9 := by omega
  rw [pad_getElem?_tail, List.getElem?_append_left (by simpa using hj), List.getElem?_replicate_of_lt hj]

theorem pad_getElem?_lengthField (lm : LenMode) (m : List Byte) {j : Nat} (h : j < 8) :
    (pad lm m)[paddedLength m.length - 8 + j]? = some (byteOf (lenVal lm m.length) j) := by
  have hge := paddedLength_ge m.length
  rw [show paddedLength m.length - 8 + j = m.length + 1 + (paddedLength m.length - m.length - 9 + j) by omega,
    pad_getElem?_tail, List.getElem?_append_right (by simp), List.length_replicate, Nat.add_sub_cancel_left,
    le64_getElem? _ h]

/-- Settles O28: the parts of PAD(m) one after another, and how many zeros stand between marker and length field. -/
theorem paddedContentBytewise : Obligations.PaddedContentBytewise := by
  intro lm m L P
  have hge : L + 9 ≤ P := paddedLength_ge L
  have hlt : P < L + 9 + 64 := paddedLength_lt L
  have hmul : 64 ∣ P := dvd_paddedLength L
  exact ⟨pad_length lm m, fun k => pad_getElem?_message lm m, pad_getElem?_marker lm m,
    fun k => pad_getElem?_zero lm m, fun j => pad_getElem?_lengthField lm m, by omega, by omega⟩

end Sys2Proof.Machine
end

section
/-! PROOFS. How the engine's operations carry it along DIGEST_FN of the bytes pushed (R99, R141, R163): one lemma per
operation, then every event. -/

namespace Sys2Proof.Machine

/-! ### What BlockOk says, by MODE and BUSY -/

section BlockOk

variable {lm : LenMode} {m : List Byte} {e : Engine}

theorem blockOk_idle (hm : e.mode = .absorb) (hs : e.stage = .idle) :
    BlockOk lm m e ↔ e.cnt = absorbedCount m e % 64 ∧ e.acc = chain iv (byteAt m) (absorbedCount m e / 64) ∧
      ∀ k, k < e.cnt → Memory.read e.buf k = byteAt m (64 * (absorbedCount m e / 64) + k) := by
  simp only [BlockOk, hm, hs]

theorem blockOk_busy (hm : e.mode = .absorb) (hs : e.stage ≠ .idle) :
    BlockOk lm m e ↔ 64 ≤ absorbedCount m e ∧ absorbedCount m e % 64 = 0 ∧
      AtBlock (byteAt m) (absorbedCount m e / 64 - 1) e := by
  cases hst : e.stage with
  | idle => exact absurd hst hs
  | rounds | accum => simp only [BlockOk, hm, hst]

theorem blockOk_finalizing (hm : e.mode = .finalizing) :
    BlockOk lm m e ↔ e.lenf = lenVal lm m.length ∧ (e.fin2 = true → 56 ≤ m.length % 64) ∧
      AtBlock (byteAt (pad lm m)) (blockCount m.length - if e.fin2 then 2 else 1) e := by
  simp only [BlockOk, hm]

theorem blockOk_done (hm : e.mode = .done) : BlockOk lm m e ↔ e.acc = digestState lm m := by
  simp only [BlockOk, hm]

theorem workingOk_idle (hs : e.stage = .idle) : WorkingOk e := by
  simp only [WorkingOk, hs]

theorem workingOk_rounds (hs : e.stage = .rounds) :
    WorkingOk e ↔ e.wv = roundsUpTo e.acc (Memory.read e.buf) e.rnd.val := by
  simp only [WorkingOk, hs]

theorem workingOk_accum (hs : e.stage = .accum) : WorkingOk e ↔ e.wv = rounds64 e.acc (Memory.read e.buf) := by
  simp only [WorkingOk, hs]

/-- A block that has just started has performed no round (R157). -/
theorem workingOk_of_start (hs : e.stage = .rounds) (hr : e.rnd = 0) (hw : e.wv = e.acc) : WorkingOk e := by
  rw [workingOk_rounds hs, hr, hw]
  rfl

end BlockOk

/-! ### INIT, reset, and what leaves the computation alone -/

/-- A fresh computation has absorbed nothing (R211). -/
theorem Fresh.tracks {e : Engine} (h : Fresh e) (lm : LenMode) : Tracks lm [] e where
  pendLe := by simp [h.pend]
  pend := by simp [h.pend]
  bitlen := by simp [absorbedCount, h.bitlen]
  lenOvf := by cases lm <;> simp [absorbedCount, lengthOverflow, h.lenOvf]
  block := by
    rw [blockOk_idle h.mode h.stage, h.cnt, h.acc]
    simp [absorbedCount, chain]
  working := workingOk_idle h.stage

theorem fresh_reset : Fresh Engine.reset := ⟨rfl, rfl, rfl, rfl, rfl, rfl, rfl, rfl, rfl, rfl⟩

theorem fresh_initCommand {e : Engine} (hi : e.stage = .idle) : Fresh (initCommand e) :=
  ⟨rfl, rfl, rfl, rfl, hi, rfl, rfl, rfl, rfl, rfl⟩

section Operations

variable {lm : LenMode} {m : List Byte} {e : Engine} (h : Tracks lm m e)
include h

theorem Tracks.withData (v : Word) : Tracks lm m (e.withData v) :=
  ⟨h.pendLe, h.pend, h.bitlen, h.lenOvf, h.block, h.working⟩

theorem Tracks.setErrBusy : Tracks lm m e.setErrBusy :=
  ⟨h.pendLe, h.pend, h.bitlen, h.lenOvf, h.block, h.working⟩

theorem Tracks.setErrCmd : Tracks lm m e.setErrCmd :=
  ⟨h.pendLe, h.pend, h.bitlen, h.lenOvf, h.block, h.working⟩

/-! ### ROUND (R159) -/

/-- Round RND takes the working variables of RND rounds to those of one more. -/
theorem Tracks.working_after_round (hs : e.stage = .rounds) : WorkingOk (engineRound e) := by
  have hwv : (engineRound e).wv = roundsUpTo e.acc (Memory.read e.buf) (e.rnd.val + 1) := by
    rw [engineRound_wv, (workingOk_rounds hs).mp h.working]
    rfl
  by_cases h63 : e.rnd.val = 63
  · have hst : (engineRound e).stage = .accum := by rw [engineRound_stage, if_pos h63]
    rw [workingOk_accum hst, hwv, h63, engineRound_acc, engineRound_buf]
    rfl
  · have hst : (engineRound e).stage = .rounds := by rw [engineRound_stage, if_neg h63, hs]
    have hrnd : (engineRound e).rnd.val = e.rnd.val + 1 := by
      rw [engineRound_rnd, if_neg h63, Fin.val_add_one_of_lt' (by omega)]
    rw [workingOk_rounds hst, hwv, hrnd, engineRound_acc, engineRound_buf]

/-- A round leaves ACC, BUF, MODE and BUSY, so the block that is due stays due. -/
theorem Tracks.after_round (hs : e.stage = .rounds) : Tracks lm m (engineRound e) := by
  have hcount : absorbedCount m (engineRound e) = absorbedCount m e := by simp [absorbedCount]
  have hbusy : (engineRound e).stage ≠ .idle := by
    rw [engineRound_stage, hs]; split <;> simp
  have hat : ∀ bytes t, AtBlock bytes t (engineRound e) ↔ AtBlock bytes t e := by simp [AtBlock]
  have hblock : BlockOk lm m (engineRound e) := by
    have hb := h.block
    cases hm : e.mode with
    | absorb =>
      rw [blockOk_busy hm (by simp [hs])] at hb
      rw [blockOk_busy (by simpa using hm) hbusy, hcount, hat]
      exact hb
    | finalizing =>
      rw [blockOk_finalizing hm] at hb
      rw [blockOk_finalizing (by simpa using hm), hat]
      simpa using hb
    | done =>
      rw [blockOk_done hm] at hb
      rw [blockOk_done (by simpa using hm)]
      simpa using hb
  exact {
    pendLe := by simpa using h.pendLe
    pend := by simpa [hcount] using h.pend
    bitlen := by simpa [hcount] using h.bitlen
    lenOvf := by simpa [hcount] using h.lenOvf
    block := hblock
    working := h.working_after_round hs }

/-! ### PUSH (R155) -/

/-- LEN_OVF after the first k of the bytes offered: it is the overflow condition of the longer message (R97, R153). -/
theorem Tracks.lenOvf_after_absorb (bs : List Byte) (hi : e.stage = .idle) (hc : e.cnt ≤ 63) :
    (absorbList lm bs e).lenOvf = lengthOverflow lm (absorbedCount m e + min bs.length (64 - e.cnt)) := by
  rw [Bool.eq_iff_iff, absorbList_lenOvf lm bs e hi hc, lengthOverflow_add, h.lenOvf, h.bitlen]

/-- The block in progress after absorbing: the bytes already there, and after them the new ones that fit (R22, R153). -/
theorem Tracks.read_after_absorb (bs : List Byte) (hi : e.stage = .idle) (hm : e.mode = .absorb) (hp : e.pend = [])
    {k : Nat} (hk : k < e.cnt + min bs.length (64 - e.cnt)) :
    Memory.read (absorbList lm bs e).buf k = byteAt (m ++ bs) (64 * (m.length / 64) + k) := by
  have hcount : absorbedCount m e = m.length := by simp [absorbedCount, hp]
  obtain ⟨hcnt, -, hold⟩ := (blockOk_idle hm hi).mp h.block
  rw [hcount] at hcnt hold
  obtain ⟨hbuf, -⟩ := absorbList_spec lm bs e hi (by omega)
  rw [hbuf]
  by_cases hlt : k < e.cnt
  · rw [Memory.read_writeBytes_out _ (.inl hlt), hold k hlt, byteAt_append_left (by omega)]
  · obtain ⟨j, rfl⟩ : ∃ j, k = e.cnt + j := ⟨k - e.cnt, by omega⟩
    rw [Memory.read_writeBytes_in _ (by rw [List.length_take]; omega) (by omega), byteAt_append_right (by omega),
      show 64 * (m.length / 64) + (e.cnt + j) - m.length = j by omega]
    simp only [List.getD_eq_getElem?_getD, List.getElem?_take_of_lt (show j < min bs.length (64 - e.cnt) by omega)]

/-- ABSORB_LIST from an idle engine appends its bytes to the message: those that fit are absorbed, the rest waits, and a
block that fills starts (R153, R157, R158). -/
theorem Tracks.after_absorb (bs : List Byte) (hi : e.stage = .idle) (hm : e.mode = .absorb) (hp : e.pend = []) :
    Tracks lm (m ++ bs) (absorbList lm bs e) := by
  have hcount : absorbedCount m e = m.length := by simp [absorbedCount, hp]
  obtain ⟨hcnt, hacc, -⟩ := (blockOk_idle hm hi).mp h.block
  rw [hcount] at hcnt hacc
  have hc63 : e.cnt ≤ 63 := by omega
  obtain ⟨hacc', hmode', -⟩ := absorbList_frame lm bs e
  obtain ⟨-, hcnt', hbitlen', hpend', hstay, hstart⟩ := absorbList_spec lm bs e hi hc63
  have hcount' : absorbedCount (m ++ bs) (absorbList lm bs e) = m.length + min bs.length (64 - e.cnt) := by
    rw [absorbedCount, hpend', List.length_drop, List.length_append]
    omega
  have hchain : (absorbList lm bs e).acc = chain iv (byteAt (m ++ bs)) (m.length / 64) := by
    rw [hacc', hacc]
    exact chain_congr iv _ fun k hk => (byteAt_append_left (by omega)).symm
  have hread := fun k => h.read_after_absorb bs hi hm hp (k := k)
  have hbits : (absorbList lm bs e).bitlen = BitVec.ofNat 64 (8 * (m.length + min bs.length (64 - e.cnt))) := by
    rw [hbitlen', h.bitlen, hcount, ← BitVec.ofNat_add, Nat.mul_add]
  have hblock : BlockOk lm (m ++ bs) (absorbList lm bs e) ∧ WorkingOk (absorbList lm bs e) := by
    rcases Nat.lt_or_ge (e.cnt + bs.length) 64 with hroom | hfull
    · obtain ⟨hst, -, -⟩ := hstay (by omega)
      refine ⟨(blockOk_idle (hmode'.trans hm) hst).mpr ?_, workingOk_idle hst⟩
      rw [hcount', hcnt', show (m.length + min bs.length (64 - e.cnt)) / 64 = m.length / 64 by omega]
      exact ⟨by omega, hchain, hread⟩
    · obtain ⟨hst, hwv, hrnd⟩ := hstart hfull
      refine ⟨(blockOk_busy (hmode'.trans hm) (by simp [hst])).mpr ?_, workingOk_of_start hst hrnd (hwv.trans hacc'.symm)⟩
      rw [hcount', show (m.length + min bs.length (64 - e.cnt)) / 64 - 1 = m.length / 64 by omega]
      exact ⟨by omega, by omega, hchain, fun k hk => hread k (by omega)⟩
  exact {
    pendLe := by rw [hpend', List.length_drop, List.length_append]; omega
    pend := by rw [hcount', hpend', List.drop_length_add_append]
    bitlen := by rw [hcount', hbits]
    lenOvf := by rw [hcount', h.lenOvf_after_absorb bs hi hc63, hcount]
    block := hblock.1
    working := hblock.2 }

/-! ### FINAL (R156) -/

/-- FINAL latches LENVAL of the message and completes its last block as PAD(m) has it (R99, R156). -/
theorem Tracks.after_final (hi : e.stage = .idle) (hm : e.mode = .absorb) (hp : e.pend = []) :
    Tracks lm m (finalCommand lm e) := by
  have hcount : absorbedCount m e = m.length := by simp [absorbedCount, hp]
  obtain ⟨hcnt, hacc, hold⟩ := (blockOk_idle hm hi).mp h.block
  rw [hcount] at hcnt hacc hold
  have hlenf : lengthField lm e.bitlen = lenVal lm m.length := by rw [h.bitlen, hcount, lenVal]
  have h56 : (finalCommand lm e).fin2 = true → 56 ≤ m.length % 64 := by
    rw [finalCommand_fin2, decide_eq_true_eq]
    omega
  have hdue : (finalCommand lm e).fin2 = true ∨ m.length % 64 ≤ 55 := by
    rw [finalCommand_fin2, decide_eq_true_eq]
    omega
  have hread : ∀ k, k < 64 →
      Memory.read (finalCommand lm e).buf k = byteAt (pad lm m) (64 * (m.length / 64) + k) := by
    intro k hk
    rw [finalCommand_buf, hlenf, byteAt_pad_lastMessageBlock lm m hk, ← hcnt]
    by_cases hlt : k < e.cnt
    · rw [if_pos hlt, Memory.read_writeBytes_out _ (.inl hlt), hold k hlt]
    · rw [if_neg hlt, Memory.read_writeBytes, if_pos]
      rw [finalTail_length _ (by omega)]
      omega
  have hblock : BlockOk lm m (finalCommand lm e) := by
    rw [blockOk_finalizing rfl, paddingBlock_index _ _ h56, if_pos hdue]
    refine ⟨hlenf, h56, ?_, hread⟩
    rw [finalCommand_acc, hacc]
    exact chain_congr iv _ fun k hk => (byteAt_pad_message lm m (by omega)).symm
  exact ⟨h.pendLe, h.pend, h.bitlen, h.lenOvf, hblock, workingOk_of_start rfl rfl rfl⟩

/-! ### ACCUM (R160) -/

/-- Folding the block that is due brings the accumulators to the next one (R140, R141). -/
theorem Tracks.acc_after_fold (hs : e.stage = .accum) {bytes : Nat → Byte} {t : Nat} (hat : AtBlock bytes t e) :
    (foldBlock e).acc = chain iv bytes (t + 1) := by
  obtain ⟨hacc, hbuf⟩ := hat
  rw [foldBlock_acc, (workingOk_accum hs).mp h.working, chain, ← hacc]
  exact compressBlock_congr hbuf _

/-- Once a full block is folded, the engine stands, idle, after the absorbed part of the message (R160). -/
theorem Tracks.after_fold (hs : e.stage = .accum) (hm : e.mode = .absorb) :
    Tracks lm (m.take (absorbedCount m e)) ((foldBlock e).withPend []) := by
  obtain ⟨h64, hmod, hat⟩ := (blockOk_busy hm (by simp [hs])).mp h.block
  have hle : absorbedCount m e ≤ m.length := Nat.sub_le _ _
  have hcount : absorbedCount (m.take (absorbedCount m e)) ((foldBlock e).withPend []) = absorbedCount m e := by
    rw [absorbedCount, Engine.withPend_pend, List.length_take, List.length_nil]
    omega
  have hacc : (foldBlock e).acc = chain iv (byteAt (m.take (absorbedCount m e))) (absorbedCount m e / 64) := by
    rw [h.acc_after_fold hs hat, Nat.sub_add_cancel (by omega)]
    refine chain_congr iv _ fun k hk => ?_
    rw [byteAt, byteAt, List.getD_eq_getElem?_getD, List.getD_eq_getElem?_getD, List.getElem?_take_of_lt (by omega)]
  exact {
    pendLe := Nat.zero_le _
    pend := by rw [hcount, List.drop_eq_nil_of_le (by rw [List.length_take]; omega), Engine.withPend_pend]
    bitlen := by rw [hcount]; exact h.bitlen
    lenOvf := by rw [hcount]; exact h.lenOvf
    block := by
      refine (blockOk_idle (by simpa using hm) rfl).mpr ?_
      rw [hcount]
      exact ⟨hmod.symm, hacc, fun k hk => absurd hk (Nat.not_lt_zero k)⟩
    working := workingOk_idle rfl }

/-- Before the last padding block the second one is written: it is the last block of PAD(m) (R99, R160). -/
theorem Tracks.after_secondBlock (hs : e.stage = .accum) (hm : e.mode = .finalizing) (hf : e.fin2 = true) :
    Tracks lm m (startBlock { foldBlock e with
      buf := Memory.writeBytes e.buf 0 (secondBlock e.lenf), fin2 := false }) := by
  obtain ⟨hlenf, h56, hat⟩ := (blockOk_finalizing hm).mp h.block
  have hmod : 56 ≤ m.length % 64 := h56 hf
  rw [paddingBlock_index _ _ h56, if_pos (.inl hf)] at hat
  refine ⟨h.pendLe, h.pend, h.bitlen, h.lenOvf, (blockOk_finalizing (by simpa using hm)).mpr ?_, workingOk_of_start rfl rfl rfl⟩
  rw [paddingBlock_index _ _ (by simp), if_neg (by simp; omega)]
  refine ⟨hlenf, by simp, h.acc_after_fold hs hat, fun k hk => ?_⟩
  rw [startBlock_buf, Memory.read_writeBytes, if_pos (by rw [secondBlock_length]; omega), hlenf,
    byteAt_pad_secondBlock lm m hk hmod, Nat.sub_zero]

/-- The last accumulation step completes the Digest State (R142, R160). -/
theorem Tracks.after_lastFold (hs : e.stage = .accum) (hm : e.mode = .finalizing) (hf : e.fin2 = false) :
    Tracks lm m { foldBlock e with mode := .done } := by
  obtain ⟨-, -, hat⟩ := (blockOk_finalizing hm).mp h.block
  have hpos : 1 ≤ blockCount m.length := by rw [blockCount]; omega
  have hacc := h.acc_after_fold hs hat
  rw [hf, if_neg Bool.false_ne_true, Nat.sub_add_cancel hpos] at hacc
  exact ⟨h.pendLe, h.pend, h.bitlen, h.lenOvf, (blockOk_done rfl).mpr hacc, workingOk_idle rfl⟩

/-- The accumulation step, by MODE and FIN2; the waiting bytes of PEND are the rest of the message (R25). -/
theorem Tracks.after_accum (hinv : EngineInv e) (hs : e.stage = .accum) : Tracks lm m (engineAccum lm e) := by
  cases hm : e.mode with
  | absorb =>
    have hrest := (h.after_fold hs hm).after_absorb e.pend rfl hm rfl
    rw [absorbList_withPend, h.pend, List.take_append_drop, ← h.pend] at hrest
    rw [engineAccum_absorb (by simp [hm])]
    exact hrest
  | finalizing =>
    cases hf : e.fin2 with
    | true => rw [engineAccum_secondBlock hm hf]; exact h.after_secondBlock hs hm hf
    | false => rw [engineAccum_done hm hf]; exact h.after_lastFold hs hm hf
  | done => simpa [hs] using hinv.done hm

end Operations

/-! ### The message after an event -/

/-- An event that is no reset and executes no command leaves the message as it is. -/
theorem messageAfter_of_no_command {s : State} (m : List Byte) (ht : nextTurn s ≠ .reset)
    (ha : commandAccepted s = none) : messageAfter s m = m := by
  simp only [messageAfter, if_neg ht, ha]

theorem messageAfter_reset {s : State} (m : List Byte) (ht : nextTurn s = .reset) : messageAfter s m = [] := by
  rw [messageAfter, if_pos ht]

/-- What acceptance of a command says of the word offered and of the engine (R152, R194). -/
theorem commandAccepted_inv {s : State} {i : Instr} (h : commandAccepted s = some i) :
    ∃ v, commandOffered s = some v ∧ decode v = .command i ∧ s.engine.stage = .idle ∧
      (i ≠ .init → s.engine.mode ≠ .done) := by
  cases ho : commandOffered s with
  | none => simp [commandAccepted, ho] at h
  | some v =>
    by_cases hb : s.engine.busy = true
    · simp [commandAccepted, ho, hb] at h
    · cases hd : decode v with
      | illegal why => simp [commandAccepted, ho, hd] at h
      | command j =>
        simp only [commandAccepted, ho, hd, if_neg hb] at h
        split_ifs at h with hj
        injection h with hji
        subst hji
        have hi : s.engine.stage = .idle := by simpa using hb
        exact ⟨v, rfl, hd, hi, fun hn hdone => hj ⟨(Engine.isDone_eq_true _).mpr hdone, hn⟩⟩

/-- The engine after a command that is accepted (R154 to R156). -/
def acceptedCommand (lm : LenMode) : Instr → Engine → Engine
  | .init => initCommand
  | .push nb => pushCommand lm nb
  | .final => finalCommand lm

/-- The event that executes a command leaves the engine as the command does (R152). -/
theorem step_engine_of_accepted {s t : State} {i : Instr} (ha : commandAccepted s = some i) (h : step s = .next t) :
    t.engine = acceptedCommand s.config.lenMode i s.engine := by
  obtain ⟨v, ho, hd, hi, hm⟩ := commandAccepted_inv ha
  rw [step_of_commandOffered ho] at h
  cases command_effect h with
  | dropped hb => exact absurd hi hb
  | illegal why _ hd' => cases hd.symm.trans hd'
  | afterDone j _ hd' hn hdone =>
    cases hd.symm.trans hd'
    exact absurd hdone (hm hn)
  | init _ hd' | push _ _ hd' | final _ hd' =>
    cases hd.symm.trans hd'
    rfl

/-! ### Every event (R163) -/

/-- Of the events that are no reset and execute no command, only the engine's own steps touch the computation. -/
theorem EngineEvent.tracks {s : State} {f : Engine} {m : List Byte} (he : EngineEvent s f)
    (ht : nextTurn s ≠ .reset) (ha : commandAccepted s = none) (hinv : EngineInv s.engine)
    (h : Tracks s.config.lenMode m s.engine) : Tracks s.config.lenMode m f := by
  cases he with
  | reset hr => exact absurd hr ht
  | same => exact h
  | round _ hs => exact h.after_round hs
  | accum _ hs => exact h.after_accum hinv hs
  | data v => exact h.withData v
  | dropped => exact h.setErrBusy
  | rejected => exact h.setErrCmd
  | init ha' | push _ ha' | final ha' => cases ha.symm.trans ha'

/-- A command that is accepted takes the engine to its place in DIGEST_FN of the message it leaves (R154 to R156). -/
theorem Tracks.after_command {s : State} {i : Instr} {m : List Byte} (h : Tracks s.config.lenMode m s.engine)
    (hinv : EngineInv s.engine) (ha : commandAccepted s = some i) (ht : nextTurn s ≠ .reset) :
    Tracks s.config.lenMode (messageAfter s m) (acceptedCommand s.config.lenMode i s.engine) := by
  obtain ⟨v, -, -, hi, hm⟩ := commandAccepted_inv ha
  obtain ⟨-, hp, -⟩ := hinv.idle hi
  rw [messageAfter, if_neg ht, ha]
  cases i with
  | init => exact (fresh_initCommand hi).tracks _
  | push nb => exact h.after_absorb _ hi (hinv.mode_absorb hi (hm (by simp))) hp
  | final => exact h.after_final hi (hinv.mode_absorb hi (hm (by simp))) hp

/-- Settles O51: by whether the event is a reset, executes a command, or does neither. -/
theorem everyStepTracksMessage : Obligations.EveryStepTracksMessage := by
  intro s t m hinv h hst
  by_cases ht : nextTurn s = .reset
  · have hreset : t.engine = Engine.reset := by
      rw [step_reset ht, Host.Outcome.next.injEq] at hst
      rw [← hst, State.withEngine_engine]
    rw [messageAfter_reset m ht, hreset]
    exact fresh_reset.tracks _
  · cases ha : commandAccepted s with
    | none =>
      rw [messageAfter_of_no_command m ht ha]
      exact (step_engineEvent hst).tracks ht ha hinv.engine h
    | some i =>
      rw [step_engine_of_accepted ha hst]
      exact h.after_command hinv.engine ha ht

end Sys2Proof.Machine
end

section
/-! PROOFS. Compression: message words (R110), rotation (R111), the mixing functions bit by bit (R113 to R116), the schedule
(R117, R120), and the 64 rounds as the engine performs them (R119, R159). -/

namespace Sys2Proof.Machine

/-! ### Message words (R110) -/

/-- LE32 of four bytes fits in 32 bits, so nothing is lost to the modulus (R7). -/
theorem le32_toNat (b0 b1 b2 b3 : Byte) :
    (le32 b0 b1 b2 b3).toNat = b0.toNat + 2 ^ 8 * b1.toNat + 2 ^ 16 * b2.toNat + 2 ^ 24 * b3.toNat := by
  have h0 := b0.isLt
  have h1 := b1.isLt
  have h2 := b2.isLt
  have h3 := b3.isLt
  rw [le32, BitVec.toNat_ofNat, Nat.mod_eq_of_lt (by omega)]

/-- Settles O26: a message word is LE32 of its four bytes. -/
theorem messageWordIsLittleEndian : Obligations.MessageWordIsLittleEndian :=
  fun blk j => le32_toNat (blk (4 * j)) (blk (4 * j + 1)) (blk (4 * j + 2)) (blk (4 * j + 3))

/-! ### Rotation (R111) -/

theorem rotl32_eq_rotateLeft (x : Word) (n : Nat) : rotl32 x n = x.rotateLeft n := rfl

/-- Settles O24: a bit below n comes from the top of x, every other bit from n places below. -/
theorem rotateMovesEachBit : Obligations.RotateMovesEachBit := by
  intro x n k h1 hn hk
  have hmod : n % 32 = n := Nat.mod_eq_of_lt (by omega)
  rw [rotl32_eq_rotateLeft, BitVec.getLsbD_rotateLeft, hmod]
  by_cases hlow : k < n
  · have hsrc : (k + 32 - n) % 32 = 32 - n + k := by omega
    simp [hlow, hsrc]
  · have hsrc : (k + 32 - n) % 32 = k - n := by omega
    simp [hlow, hk, hsrc]

/-! ### The mixing functions (R113 to R116) -/

section Mixing

variable (b c d : Word) {k : Nat} (hk : k < 32)
include hk

theorem mixF_getLsbD : (mixF b c d).getLsbD k = if b.getLsbD k then c.getLsbD k else d.getLsbD k := by
  simp only [mixF, BitVec.getLsbD_or, BitVec.getLsbD_and, BitVec.getLsbD_not, hk, decide_true, Bool.true_and]
  cases b.getLsbD k <;> simp

theorem mixG_getLsbD : (mixG b c d).getLsbD k = if d.getLsbD k then b.getLsbD k else c.getLsbD k :=
  mixF_getLsbD d b c hk

theorem mixI_getLsbD : (mixI b c d).getLsbD k = (c.getLsbD k ^^ (b.getLsbD k || !d.getLsbD k)) := by
  simp [mixI, hk]

end Mixing

theorem mixH_getLsbD (b c d : Word) (k : Nat) :
    (mixH b c d).getLsbD k = (b.getLsbD k ^^ c.getLsbD k ^^ d.getLsbD k) := by
  simp [mixH]

/-- Settles O25: one fact for each function; G is F with the operands in another order. -/
theorem mixingFunctionsBitwise : Obligations.MixingFunctionsBitwise :=
  fun b c d k hk => ⟨mixF_getLsbD b c d hk, mixG_getLsbD b c d hk, mixH_getLsbD b c d k, mixI_getLsbD b c d hk⟩

/-! ### The schedule (R117, R120) -/

theorem schedule_range0 {i : Nat} (h : i < 16) : fsel i = mixF ∧ gsel i = i := by
  have hq : i / 16 = 0 := by omega
  simp [fsel, gsel, hq]

theorem schedule_range1 {i : Nat} (h : 16 ≤ i) (h' : i < 32) : fsel i = mixG ∧ gsel i = (5 * i + 1) % 16 := by
  have hq : i / 16 = 1 := by omega
  simp [fsel, gsel, hq]

theorem schedule_range2 {i : Nat} (h : 32 ≤ i) (h' : i < 48) : fsel i = mixH ∧ gsel i = (3 * i + 5) % 16 := by
  have hq : i / 16 = 2 := by omega
  simp [fsel, gsel, hq]

theorem schedule_range3 {i : Nat} (h : 48 ≤ i) (h' : i < 64) : fsel i = mixI ∧ gsel i = (7 * i) % 16 := by
  have hq : i / 16 = 3 := by omega
  simp [fsel, gsel, hq]

/-- The place in range q of the round that reads message word j: in each range g is affine modulo 16 with an odd factor
(1, 5, 3, 7), which has an inverse (1, 13, 11, 7). -/
def roundReading (q j : Nat) : Nat :=
  match q with
  | 0 => j
  | 1 => (13 * j + 3) % 16
  | 2 => (11 * j + 9) % 16
  | _ => (7 * j) % 16

theorem roundReading_lt (q : Nat) {j : Nat} (hj : j < 16) : roundReading q j < 16 := by
  unfold roundReading
  split <;> omega

/-- Word j is read by exactly one round of each range (R117). -/
theorem gsel_eq_iff {q i j : Nat} (hq : q < 4) (hi : i < 16) (hj : j < 16) :
    gsel (16 * q + i) = j ↔ i = roundReading q j := by
  interval_cases q
  · rw [(schedule_range0 (by omega)).2]; simp only [roundReading]; omega
  · rw [(schedule_range1 (by omega) (by omega)).2]; simp only [roundReading]; omega
  · rw [(schedule_range2 (by omega) (by omega)).2]; simp only [roundReading]; omega
  · rw [(schedule_range3 (by omega) (by omega)).2]; simp only [roundReading]; omega

/-- Settles O57: by range; `roundReading` is the one round that reads a word. -/
theorem roundSelectsFunctionAndWord : Obligations.RoundSelectsFunctionAndWord :=
  ⟨fun _ => schedule_range0, fun _ => schedule_range1, fun _ => schedule_range2, fun _ => schedule_range3,
    fun _ hi => Nat.le_of_lt_succ (gsel_lt hi),
    fun q hq j hj => ⟨roundReading q j, roundReading_lt q hj, (gsel_eq_iff hq (roundReading_lt q hj) hj).mpr rfl,
      fun _ hi h => (gsel_eq_iff hq hi hj).mp h⟩⟩

/-- Settles O60: the 16 rows, one by one. -/
theorem scheduleIsItsTable : Obligations.ScheduleIsItsTable := by
  intro i hi
  interval_cases i <;> rfl

/-! ### The 64 rounds (R119, R159) -/

theorem engineRound_of_last {e : Engine} (h : e.rnd.val = 63) :
    engineRound e = { e with wv := round 63 e.wv (messageWord (Memory.read e.buf)), stage := .accum } := by
  simp [engineRound, h]

theorem engineRound_of_not_last {e : Engine} (h : e.rnd.val ≠ 63) :
    engineRound e = { e with wv := round e.rnd.val e.wv (messageWord (Memory.read e.buf)), rnd := e.rnd + 1 } := by
  simp [engineRound, h]

/-- One step of a run is the engine's step, where it has one. -/
theorem engineRun_one {m : LenMode} {e : Engine} (hs : e.stage = .rounds) : engineRun m 1 e = engineRound e := by
  simp [engineRun, engineStep_rounds hs]

/-- The engine e with r rounds of its block performed from ACC, and round r due. -/
def Engine.atRound (e : Engine) (r : Fin 64) : Engine :=
  { e with wv := roundsUpTo e.acc (Memory.read e.buf) r.val, rnd := r }

theorem Engine.atRound_stage (e : Engine) (r : Fin 64) : (e.atRound r).stage = e.stage := rfl

theorem Engine.atRound_zero {e : Engine} (hr : e.rnd = 0) (hw : e.wv = e.acc) : e.atRound 0 = e := by
  cases e
  cases hr
  cases hw
  rfl

/-- A round that is not the last makes the next one due (R118, R159). -/
theorem engineRound_atRound (e : Engine) {n : Nat} (hn : n + 1 < 64) :
    engineRound (e.atRound ⟨n, by omega⟩) = e.atRound ⟨n + 1, hn⟩ := by
  have hnext : (⟨n, by omega⟩ : Fin 64) + 1 = ⟨n + 1, hn⟩ := Fin.ext (Fin.val_add_one_of_lt' hn)
  rw [engineRound_of_not_last (by simp only [Engine.atRound]; omega), Engine.atRound, hnext]
  rfl

/-- The last round makes the accumulation step due (R159). -/
theorem engineRound_atRound_last (e : Engine) :
    engineRound (e.atRound 63) = { e with wv := rounds64 e.acc (Memory.read e.buf), rnd := 63, stage := .accum } := by
  rw [engineRound_of_last rfl, Engine.atRound, rounds64, roundsUpTo]
  rfl

/-- After n < 64 engine steps from the start of a block, n rounds are performed and round n is due. -/
theorem engineRun_eq_atRound (lm : LenMode) {e : Engine} (hs : e.stage = .rounds) (hr : e.rnd = 0) (hw : e.wv = e.acc)
    {n : Nat} (hn : n < 64) : engineRun lm n e = e.atRound ⟨n, hn⟩ := by
  induction n with
  | zero => exact (Engine.atRound_zero hr hw).symm
  | succ n ih =>
    rw [engineRun_add, ih (by omega), engineRun_one ((e.atRound_stage _).trans hs), engineRound_atRound e hn]

/-- Settles O33: 63 steps lead to round 63, and the 64th performs it. -/
theorem sixtyFourStepsComputeRounds64 : Obligations.SixtyFourStepsComputeRounds64 := by
  intro lm e hs hr hw
  have h63 : engineRun lm 63 e = e.atRound 63 := engineRun_eq_atRound lm hs hr hw (by decide)
  rw [engineRun_add lm 63 1, h63, engineRun_one ((e.atRound_stage 63).trans hs), engineRound_atRound_last]

end Sys2Proof.Machine
end

section
/-! PROOFS. What the checks of R152 let through, and what INIT, PUSH and FINAL then do, with their frames
(R154 to R156). -/

namespace Sys2Proof.Machine

/-! ### The checks of a command, all in a row (R152, R194) -/

section Checks

variable {i : Instr} {s : State}

theorem exec_of_busy (i : Instr) (hb : s.engine.stage ≠ .idle) :
    exec i s = .next (s.withEngine s.engine.setErrBusy) := by
  cases i with
  | init | push | final => exact unlessBusy_busy _ hb

theorem exec_of_done (hn : i ≠ .init) (hi : s.engine.stage = .idle) (hm : s.engine.mode = .done) :
    exec i s = .next (s.withEngine s.engine.setErrCmd) := by
  cases i with
  | init => exact absurd rfl hn
  | push | final => exact (unlessBusy_idle _ hi).trans (unlessDone_done _ hm)

theorem exec_of_full (hn : i ≠ .init) (hi : s.engine.stage = .idle) (hm : s.engine.mode ≠ .done)
    (hc : 64 ≤ s.engine.cnt) : exec i s = .fault .bufRange := by
  cases i with
  | init => exact absurd rfl hn
  | push | final => exact ((unlessBusy_idle _ hi).trans (unlessDone_open _ hm)).trans (requireRoom_full _ hc)

/-- A command that every check lets through does what it is there for. -/
theorem exec_of_accepted (hi : s.engine.stage = .idle)
    (hopen : i ≠ .init → s.engine.mode ≠ .done ∧ s.engine.cnt < 64) :
    exec i s = .next (s.withEngine (acceptedCommand s.config.lenMode i s.engine)) := by
  cases i with
  | init => exact unlessBusy_idle _ hi
  | push | final =>
    obtain ⟨hm, hc⟩ := hopen (by simp)
    exact ((unlessBusy_idle _ hi).trans (unlessDone_open _ hm)).trans (requireRoom_room _ hc)

/-- The states in which a command stops (log entry 9). -/
def StopsAtFullBuf (i : Instr) (s : State) : Prop :=
  i ≠ .init ∧ s.engine.stage = .idle ∧ s.engine.mode ≠ .done ∧ 64 ≤ s.engine.cnt

/-- The four checks leave no other answer than a next state, or the fault of a full BUF. -/
theorem exec_cases (i : Instr) (s : State) :
    (StopsAtFullBuf i s ∧ exec i s = .fault .bufRange) ∨ (¬ StopsAtFullBuf i s ∧ ∃ t, exec i s = .next t) := by
  by_cases hstop : StopsAtFullBuf i s
  · obtain ⟨hn, hi, hm, hc⟩ := hstop
    exact .inl ⟨⟨hn, hi, hm, hc⟩, exec_of_full hn hi hm hc⟩
  · refine .inr ⟨hstop, ?_⟩
    by_cases hi : s.engine.stage = .idle
    · by_cases hdone : i ≠ .init ∧ s.engine.mode = .done
      · exact ⟨_, exec_of_done hdone.1 hi hdone.2⟩
      · refine ⟨_, exec_of_accepted hi fun hn => ?_⟩
        have hm : s.engine.mode ≠ .done := fun hm => hdone ⟨hn, hm⟩
        exact ⟨hm, Nat.lt_of_not_le fun hc => hstop ⟨hn, hi, hm, hc⟩⟩
    · exact ⟨_, exec_of_busy i hi⟩

end Checks

/-- Settles O16: of the two kinds of answer only one is a fault. -/
theorem commandFaultsExactlyBeyondBuf : Obligations.CommandFaultsExactlyBeyondBuf := by
  intro i s
  change _ ∧ (_ ↔ StopsAtFullBuf i s) ∧ _
  rcases exec_cases i s with ⟨hstop, h⟩ | ⟨hgo, t, h⟩
  · rw [h]
    exact ⟨by simp, ⟨fun _ => hstop, fun _ => ⟨_, rfl⟩⟩, by simp [eq_comm]⟩
  · rw [h]
    exact ⟨by simp, ⟨by simp, fun hstop => absurd hstop hgo⟩, by simp⟩

/-! ### INIT (R154), and a word dropped while BUSY = 1 (R152) -/

/-- Settles O12: INIT passes the checks of every idle engine. -/
theorem initStartsFreshComputation : Obligations.InitStartsFreshComputation := by
  intro s
  refine ⟨by decide, fun hi => ?_, exec_of_busy .init⟩
  refine ⟨_, exec_of_accepted hi fun hn => absurd rfl hn, ⟨rfl, rfl, rfl, rfl⟩, ?_⟩
  exact ⟨rfl, rfl, rfl, rfl, rfl, rfl, rfl, rfl, rfl, rfl, hi, rfl, rfl, rfl, fun _ => rfl⟩

theorem command_of_busy (v : Word) {s : State} (hb : s.engine.stage ≠ .idle) :
    command v s = .next (s.withEngine s.engine.setErrBusy) := by
  unfold command
  cases decode v with
  | command i => exact exec_of_busy i hb
  | illegal why => exact unlessBusy_busy _ hb

/-- Settles O9: BUSY comes before the word is looked at. -/
theorem busyEngineDropsEveryWord : Obligations.BusyEngineDropsEveryWord := by
  intro s v ho hb
  have hdrop := command_of_busy v (s := (s.withTurns s.turns.tail).withProg s.prog.tail) hb
  exact ⟨_, (step_of_commandOffered ho).trans hdrop, rfl, rfl, rfl, rfl, rfl⟩

/-! ### PUSH (R155) -/

theorem dataBytes_getElem? (d : Word) {n j : Nat} (h : j < n) : (dataBytes d n)[j]? = some (byteOf d j) := by
  simp [dataBytes, h]

section Push

variable (lm : LenMode) (nb : BitVec 2) {e : Engine} (hi : e.stage = .idle) (hc : e.cnt ≤ 63)
include hi hc

/-- What PUSH does to BUF, CNT, BITLEN and PEND, and whether a block starts (R153, R157, R158). -/
theorem pushCommand_spec :
    let k := min (pushCount nb) (64 - e.cnt)
    let f := pushCommand lm nb e
    f.buf = Memory.writeBytes e.buf e.cnt ((dataBytes e.data (pushCount nb)).take k) ∧ f.cnt = e.cnt + k ∧
      f.bitlen = e.bitlen + BitVec.ofNat 64 (8 * k) ∧ f.pend = (dataBytes e.data (pushCount nb)).drop k ∧
      (e.cnt + pushCount nb ≤ 63 → f.stage = .idle ∧ f.wv = e.wv ∧ f.rnd = e.rnd) ∧
      (64 ≤ e.cnt + pushCount nb → f.stage = .rounds ∧ f.wv = e.acc ∧ f.rnd = 0) := by
  simpa only [pushCommand, dataBytes_length] using absorbList_spec lm (dataBytes e.data (pushCount nb)) e hi hc

theorem pushCommand_lenOvf : (pushCommand lm nb e).lenOvf = true ↔ e.lenOvf = true ∨
    ∃ j, 1 ≤ j ∧ j ≤ min (pushCount nb) (64 - e.cnt) ∧ (2 ^ 64 ≤ e.bitlen.toNat + 8 * j ∨
      (lm = .trunc32 ∧ 2 ^ 32 ≤ (e.bitlen.toNat + 8 * j) % 2 ^ 64)) := by
  have hlo := absorbList_lenOvf lm (dataBytes e.data (pushCount nb)) e hi hc
  rwa [dataBytes_length] at hlo

theorem pushCommand_read_new {j : Nat} (hj : j < min (pushCount nb) (64 - e.cnt)) :
    Memory.read (pushCommand lm nb e).buf (e.cnt + j) = byteOf e.data j := by
  obtain ⟨hbuf, -⟩ := pushCommand_spec lm nb hi hc
  rw [hbuf, Memory.read_writeBytes_in _ (by simp; omega) (by omega),
    List.getD_eq_getElem?_getD, List.getElem?_take_of_lt hj, dataBytes_getElem? _ (by omega), Option.getD_some]

theorem pushCommand_read_old {a : Nat} (ha : a < e.cnt ∨ e.cnt + min (pushCount nb) (64 - e.cnt) ≤ a) :
    Memory.read (pushCommand lm nb e).buf a = Memory.read e.buf a := by
  obtain ⟨hbuf, -⟩ := pushCommand_spec lm nb hi hc
  rw [hbuf, Memory.read_writeBytes_out _ (by simp; omega)]

theorem pushCommand_pend_length :
    (pushCommand lm nb e).pend.length = pushCount nb - min (pushCount nb) (64 - e.cnt) := by
  obtain ⟨-, -, -, hpend, -⟩ := pushCommand_spec lm nb hi hc
  rw [hpend, List.length_drop, dataBytes_length]

theorem pushCommand_pend_getElem? {j : Nat} (hj : j < pushCount nb - min (pushCount nb) (64 - e.cnt)) :
    (pushCommand lm nb e).pend[j]? = some (byteOf e.data (min (pushCount nb) (64 - e.cnt) + j)) := by
  obtain ⟨-, -, -, hpend, -⟩ := pushCommand_spec lm nb hi hc
  rw [hpend, List.getElem?_drop, dataBytes_getElem? _ (by omega)]

end Push

/-- Settles O13: PUSH passes the checks, and absorbing its bytes does each part. -/
theorem pushAbsorbsBytes : Obligations.PushAbsorbsBytes := by
  intro s nb
  refine ⟨BitVec.or_comm _ _, fun hi hm hc => ?_, exec_of_busy (.push nb), exec_of_done (by simp)⟩
  intro n k
  have hexec := exec_of_accepted (i := .push nb) hi fun _ => ⟨by simp [hm], Nat.lt_succ_of_le hc⟩
  obtain ⟨-, hcnt, hbitlen, -, hstay, hstart⟩ := pushCommand_spec s.config.lenMode nb hi hc
  exact ⟨_, hexec, ⟨rfl, rfl, rfl, rfl⟩, fun j => pushCommand_read_new _ nb hi hc,
    fun a => pushCommand_read_old _ nb hi hc, hcnt, pushCommand_pend_length _ nb hi hc,
    fun j => pushCommand_pend_getElem? _ nb hi hc, hbitlen, pushCommand_lenOvf _ nb hi hc, hstay, hstart,
    absorbList_frame s.config.lenMode (dataBytes s.engine.data (pushCount nb)) s.engine⟩

/-! ### The padding FINAL writes, byte by byte (R99, R156) -/

theorem finalTail_marker (c : Nat) (lenf : DWord) : (finalTail c lenf).getD 0 0 = 0x80 := by
  unfold finalTail
  split <;> rfl

/-- Zeros follow the marker, up to the length field or the end of the block. -/
theorem finalTail_zero {c j : Nat} (lenf : DWord) (hj : 0 < j) (hend : c ≤ 55 → c + j < 56) :
    (finalTail c lenf).getD j 0 = 0x00 := by
  obtain ⟨i, rfl⟩ : ∃ i, j = i + 1 := ⟨j - 1, by omega⟩
  unfold finalTail
  split
  · rw [List.getD_cons_succ, List.getD_append _ _ _ _ (by rw [List.length_replicate]; omega), replicate_zero_getD]
  · rw [List.getD_cons_succ, replicate_zero_getD]

theorem finalTail_lengthField {c j : Nat} (lenf : DWord) (hc : c ≤ 55) (hj : j < 8) :
    (finalTail c lenf).getD (56 + j - c) 0 = byteOf lenf j := by
  rw [finalTail, if_pos hc, show 56 + j - c = 55 - c + j + 1 by omega, List.getD_cons_succ,
    List.getD_append_right _ _ _ _ (by simp), List.length_replicate, Nat.add_sub_cancel_left, le64_getD hj]

theorem finalCommand_read_old (lm : LenMode) {e : Engine} {a : Nat} (ha : a < e.cnt ∨ 64 ≤ a) :
    Memory.read (finalCommand lm e).buf a = Memory.read e.buf a := by
  rw [finalCommand_buf, Memory.read_writeBytes_out _ (by omega)]

section Final

variable (lm : LenMode) {e : Engine} (hc : e.cnt ≤ 63)
include hc

theorem finalCommand_read_tail {a : Nat} (hlow : e.cnt ≤ a) (hhigh : a < 64) :
    Memory.read (finalCommand lm e).buf a = (finalTail e.cnt (lengthField lm e.bitlen)).getD (a - e.cnt) 0 := by
  rw [finalCommand_buf, Memory.read_writeBytes, if_pos (by rw [finalTail_length _ hc]; omega)]

theorem finalCommand_read_marker : Memory.read (finalCommand lm e).buf e.cnt = 0x80 := by
  rw [finalCommand_read_tail lm hc (Nat.le_refl _) (by omega), Nat.sub_self, finalTail_marker]

theorem finalCommand_read_zero {a : Nat} (hlow : e.cnt < a) (hhigh : a < 64) (hend : e.cnt ≤ 55 → a < 56) :
    Memory.read (finalCommand lm e).buf a = 0x00 := by
  rw [finalCommand_read_tail lm hc (by omega) hhigh, finalTail_zero _ (by omega) (by omega)]

theorem finalCommand_read_lengthField (h55 : e.cnt ≤ 55) {j : Nat} (hj : j < 8) :
    Memory.read (finalCommand lm e).buf (56 + j) = byteOf (finalCommand lm e).lenf j := by
  rw [finalCommand_read_tail lm hc (by omega) (by omega), finalTail_lengthField _ h55 hj, finalCommand_lenf]

end Final

theorem lengthField_trunc32_toNat (v : DWord) : (lengthField .trunc32 v).toNat = v.toNat % 2 ^ 32 := by
  simp only [lengthField, BitVec.toNat_setWidth]
  omega

/-- Settles O14: FINAL passes the checks; its padding is read off the row it writes. -/
theorem finalPadsAndStartsBlock : Obligations.FinalPadsAndStartsBlock := by
  intro s
  refine ⟨by decide, fun hi hm hc => ?_, exec_of_busy .final, exec_of_done (by simp)⟩
  intro c
  have hexec := exec_of_accepted (i := .final) hi fun _ => ⟨by simp [hm], Nat.lt_succ_of_le hc⟩
  refine ⟨_, hexec, ⟨rfl, rfl, rfl, rfl⟩, fun hlm => ?_, fun hlm => ?_, fun a => finalCommand_read_old _,
    finalCommand_read_marker _ hc,
    fun h55 => ⟨fun a hlow hhigh => ?_, fun j => finalCommand_read_lengthField _ hc h55, ?_⟩,
    fun h56 => ⟨fun a hlow hhigh => ?_, ?_⟩, rfl, rfl, rfl, rfl, rfl, rfl, rfl, rfl, rfl, rfl, rfl, rfl⟩
  · rw [hlm]
    exact lengthField_trunc32_toNat _
  · rw [hlm]
    rfl
  · exact finalCommand_read_zero _ hc hlow (by omega) fun _ => hhigh
  · exact decide_eq_false (by omega)
  · exact finalCommand_read_zero _ hc hlow hhigh (by omega)
  · exact decide_eq_true (by omega)

end Sys2Proof.Machine
end

section
/-! PROOFS. The register window: what a read answers (R150), what a write outside CMD does (R151), and what a final
state shows (R164). -/

namespace Sys2Proof.Machine

/-! ### Reads (R150) -/

/-- The STATUS word of five flags, LEN_OVF first (R29). -/
def statusWord (lenOvf errBusy errCmd done busy : Bool) : Word :=
  flagBit lenOvf 4 ||| flagBit errBusy 3 ||| flagBit errCmd 2 ||| flagBit done 1 ||| flagBit busy 0

theorem Engine.status_eq (e : Engine) : e.status = statusWord e.lenOvf e.errBusy e.errCmd e.isDone e.busy := rfl

/-- STATUS as a number: the five flags in bits 4 to 0 (R29, R150). -/
theorem statusWord_toNat : ∀ lenOvf errBusy errCmd done busy, (statusWord lenOvf errBusy errCmd done busy).toNat =
    16 * lenOvf.toNat + 8 * errBusy.toNat + 4 * errCmd.toNat + 2 * done.toNat + busy.toNat := by
  decide

theorem cfgWord_eq (m : LenMode) : cfgWord m = if m = .full64 then 0x00000001 else 0x00000000 := by
  cases m with
  | trunc32 | full64 => rfl

theorem digestWord_eq (e : Engine) (acc : Word) :
    digestWord e acc = if e.mode = .done then acc else 0x00000000 := by
  simp [digestWord]

/-- Settles O17: the step of a read loads what RegRead answers, and that is the rule's value register by register. -/
theorem regReadReturnsValue : Obligations.RegReadReturnsValue := by
  intro s r n p hmoves
  refine ⟨_, regRead s.config s.engine r, step_read hmoves, ?_, fun m hm => ?_, rfl, rfl, rfl, rfl, ?_⟩
  · rw [State.withTemps_temps, tempAt_loadTemp, if_pos rfl]
  · rw [State.withTemps_temps, tempAt_loadTemp, if_neg (Ne.symm hm)]
  · refine ⟨?_, ?_, ?_, ?_, ?_, ?_, ?_, ?_⟩ <;> rintro rfl
    · rfl
    · exact statusWord_toNat ..
    · rfl
    · exact cfgWord_eq s.config.lenMode
    all_goals exact digestWord_eq s.engine _

/-! ### Writes (R151) -/

/-- Settles O19: by the register. -/
theorem regWriteOutsideCmd : Obligations.RegWriteOutsideCmd := by
  intro s r v p hr hmoves
  rw [step_write hmoves]
  cases r with
  | cmd => exact absurd rfl hr
  | data | status | cfg | digest0 | digest1 | digest2 | digest3 => exact ⟨_, rfl, rfl, rfl, rfl, rfl, rfl⟩

/-! ### The observation of a final state (R164) -/

/-- Settles O55: every register reads the same, and Final looks at the host's statements and at STAGE only. -/
theorem agreeingStatesObserveTheSame : Obligations.AgreeingStatesObserveTheSame := by
  intro s t h
  refine ⟨List.map_congr_left fun r _ => h.regRead_eq r, ?_⟩
  rw [Final, Final, h.prog, h.engine.stage]

end Sys2Proof.Machine
end

section
/-! PROOFS. The engine's own steps: ROUND and ACCUM (R159, R160), when there is one, and how many follow a command
(R161). -/

namespace Sys2Proof.Machine

/-! ### An engine turn (R161.1, R161.2) -/

theorem engineStep_eq_none_iff {m : LenMode} {e : Engine} : engineStep? m e = none ↔ e.stage = .idle := by
  cases hs : e.stage with
  | idle => simp [engineStep_idle hs]
  | rounds => simp [engineStep_rounds hs]
  | accum => simp [engineStep_accum hs]

theorem step_engineIdle {s : State} (ht : nextTurn s = .engine) (hi : s.engine.stage = .idle) :
    step s = .next (s.withTurns s.turns.tail) := by
  rw [step_engine ht, engineTurn, State.withTurns_config, State.withTurns_engine, engineStep_idle hi]

theorem step_engineStep {s : State} {f : Engine} (ht : nextTurn s = .engine)
    (hf : engineStep? s.config.lenMode s.engine = some f) :
    step s = .next ((s.withTurns s.turns.tail).withEngine f) := by
  rw [step_engine ht, engineTurn, State.withTurns_config, State.withTurns_engine, hf]

/-- Settles O34: by STAGE. -/
theorem engineStepsOnlyWhileBusy : Obligations.EngineStepsOnlyWhileBusy :=
  fun _ => ⟨engineStep_eq_none_iff, step_engineIdle⟩

/-! ### ROUND (R159) -/

theorem engineRound_frame (e : Engine) : engineRound e =
    { e with wv := (engineRound e).wv, rnd := (engineRound e).rnd, stage := (engineRound e).stage } := by
  unfold engineRound
  split <;> rfl

/-- Settles O31: by whether RND is 63. -/
theorem roundStepPerformsRound : Obligations.RoundStepPerformsRound := by
  intro s ht hs i q w
  refine ⟨_, step_engineStep ht (engineStep_rounds hs), engineRound_wv s.engine, fun h63 => ?_, fun h63 => ?_,
    engineRound_frame s.engine, rfl, rfl, rfl, rfl⟩
  · rw [State.withEngine_engine, engineRound_stage, engineRound_rnd, if_pos h63, if_pos h63]
    exact ⟨rfl, rfl⟩
  · have hne : s.engine.rnd.val ≠ 63 := Nat.ne_of_lt h63
    rw [State.withEngine_engine, engineRound_stage, engineRound_rnd, if_neg hne, if_neg hne]
    exact ⟨hs, Fin.val_add_one_of_lt' (Nat.succ_lt_succ h63)⟩

/-! ### ACCUM (R160) -/

theorem secondBlock_zero {k : Nat} (lenf : DWord) (hk : k < 56) : (secondBlock lenf).getD k 0 = 0x00 := by
  rw [secondBlock, List.getD_append _ _ _ _ (by rwa [List.length_replicate]), replicate_zero_getD]

theorem secondBlock_lengthField {j : Nat} (lenf : DWord) (hj : j < 8) :
    (secondBlock lenf).getD (56 + j) 0 = byteOf lenf j := by
  rw [secondBlock, List.getD_append_right _ _ _ _ (by simp), List.length_replicate,
    Nat.add_sub_cancel_left, le64_getD hj]

/-- The second padding block is all of BUF (R160). -/
theorem Memory.read_secondBlock (m : Memory) (lenf : DWord) {k : Nat} (hk : k < 64) :
    Memory.read (Memory.writeBytes m 0 (secondBlock lenf)) k = (secondBlock lenf).getD k 0 := by
  rw [Memory.read_writeBytes, if_pos (by rw [secondBlock_length]; omega), Nat.sub_zero]

/-- Fewer than 64 waiting bytes all find room after the block is folded, so the engine becomes idle (R158, R160). -/
theorem absorbList_foldBlock_spec (m : LenMode) {e : Engine} (hp : e.pend.length ≤ 63) :
    let f := absorbList m e.pend (foldBlock e)
    f.buf = Memory.writeBytes e.buf 0 e.pend ∧ f.cnt = e.pend.length ∧
      f.bitlen = e.bitlen + BitVec.ofNat 64 (8 * e.pend.length) ∧ f.pend = [] ∧ f.stage = .idle ∧ f.wv = e.wv ∧
      f.rnd = e.rnd := by
  obtain ⟨hbuf, hcnt, hbitlen, hpend, hstay, -⟩ := absorbList_spec m e.pend (foldBlock e) rfl (by simp)
  have hall : min e.pend.length (64 - (foldBlock e).cnt) = e.pend.length := by rw [foldBlock_cnt]; omega
  rw [hall] at hbuf hcnt hbitlen hpend
  rw [List.take_length] at hbuf
  rw [List.drop_length] at hpend
  rw [foldBlock_cnt, Nat.zero_add] at hcnt
  exact ⟨hbuf, hcnt, hbitlen, hpend, hstay (by rw [foldBlock_cnt]; omega)⟩

/-- Settles O32: the common part, then the three ends of the step. -/
theorem accumStepFoldsBlock : Obligations.AccumStepFoldsBlock := by
  intro s ht hs hp e
  have hfits : e.pend.length ≤ 63 := Nat.le_trans hp (by decide)
  obtain ⟨hacc, hlenf, herrCmd, herrBusy, hdata⟩ := engineAccum_frame s.config.lenMode e
  refine ⟨_, step_engineStep ht (engineStep_accum hs), hacc, hlenf, herrCmd, herrBusy, hdata, rfl, rfl, rfl, rfl, ?_⟩
  rw [State.withEngine_engine]
  refine ⟨fun hm hf => ?_, fun hm hf => ?_, fun hm => ?_⟩
  · rw [engineAccum_secondBlock hm hf]
    refine ⟨fun k hk => ?_, fun j hj => ?_, fun a ha => Memory.read_writeBytes_out _ (.inr (.inr ha)),
      rfl, rfl, hm, rfl, rfl, rfl, rfl, rfl, rfl⟩
    · exact (Memory.read_secondBlock _ _ (by omega)).trans (secondBlock_zero _ hk)
    · exact (Memory.read_secondBlock _ _ (by omega)).trans (secondBlock_lengthField _ hj)
  · rw [engineAccum_done hm hf]
    exact ⟨rfl, rfl, rfl, hf, rfl, rfl, rfl, rfl, rfl, rfl⟩
  · rw [engineAccum_absorb hm]
    obtain ⟨hbuf, hcnt, hbitlen, hpend, hstage, hwv, hrnd⟩ :=
      absorbList_foldBlock_spec s.config.lenMode hfits
    obtain ⟨-, hmode, hfin2, -⟩ := absorbList_frame s.config.lenMode e.pend (foldBlock e)
    have hovf := absorbList_lenOvf s.config.lenMode e.pend (foldBlock e) rfl (Nat.zero_le 63)
    rw [foldBlock_cnt, Nat.sub_zero, Nat.min_eq_left (by omega)] at hovf
    refine ⟨fun k hk => ?_, fun a ha => ?_, hcnt, hpend, hstage, hmode, hfin2, hbitlen, hovf, hwv, hrnd⟩
    · rw [hbuf, Memory.read_writeBytes, if_pos (by omega), Nat.sub_zero, List.getD_eq_getElem _ _ hk,
        List.getElem?_eq_getElem hk]
    · rw [hbuf, Memory.read_writeBytes_out _ (by omega)]

/-! ### How many engine steps are left (R161.4) -/

/-- The engine steps that a second padding block adds. -/
def Engine.secondBlockSteps (e : Engine) : Nat := if e.mode = .finalizing ∧ e.fin2 = true then 65 else 0

/-- The engine steps until STAGE = IDLE: a block takes 64 rounds and one accumulation. -/
def Engine.stepsLeft (e : Engine) : Nat :=
  match e.stage with
  | .idle => 0
  | .rounds => 65 - e.rnd.val + e.secondBlockSteps
  | .accum => 1 + e.secondBlockSteps

/-- The bytes that wait in PEND fill no second block (R25). -/
def Engine.PendFits (e : Engine) : Prop := e.stage ≠ .idle → e.mode ≠ .finalizing → e.pend.length ≤ 63

section StepsLeft

variable {m : LenMode} {e f : Engine}

theorem Engine.stepsLeft_idle (h : e.stage = .idle) : e.stepsLeft = 0 := by
  simp only [Engine.stepsLeft, h]

theorem Engine.stepsLeft_rounds (h : e.stage = .rounds) : e.stepsLeft = 65 - e.rnd.val + e.secondBlockSteps := by
  simp only [Engine.stepsLeft, h]

theorem Engine.stepsLeft_accum (h : e.stage = .accum) : e.stepsLeft = 1 + e.secondBlockSteps := by
  simp only [Engine.stepsLeft, h]

theorem Engine.stepsLeft_eq_zero_iff : e.stepsLeft = 0 ↔ e.stage = .idle := by
  cases hs : e.stage with
  | idle => simp [Engine.stepsLeft_idle hs]
  | rounds => rw [Engine.stepsLeft_rounds hs]; simp; omega
  | accum => rw [Engine.stepsLeft_accum hs]; simp

theorem Engine.stepsLeft_engineRound (hs : e.stage = .rounds) : e.stepsLeft = (engineRound e).stepsLeft + 1 := by
  have hsecond : (engineRound e).secondBlockSteps = e.secondBlockSteps := by simp [Engine.secondBlockSteps]
  rw [Engine.stepsLeft_rounds hs]
  by_cases h63 : e.rnd.val = 63
  · rw [Engine.stepsLeft_accum (by rw [engineRound_stage, if_pos h63]), hsecond, h63]
    omega
  · have hrnd : (engineRound e).rnd.val = e.rnd.val + 1 := by
      rw [engineRound_rnd, if_neg h63, Fin.val_add_one_of_lt' (by omega)]
    rw [Engine.stepsLeft_rounds (by rw [engineRound_stage, if_neg h63, hs]), hsecond, hrnd]
    omega

/-- Only the accumulation step before a second padding block leaves steps to be taken: that block's. -/
theorem Engine.stepsLeft_engineAccum (hp : e.PendFits) (hs : e.stage = .accum) :
    e.stepsLeft = (engineAccum m e).stepsLeft + 1 := by
  rw [Engine.stepsLeft_accum hs, Engine.secondBlockSteps]
  rcases engineAccum_cases m e with ⟨hm, hf, h⟩ | ⟨hm, hf, h⟩ | ⟨hm, h⟩ <;> rw [h]
  · rw [if_pos ⟨hm, hf⟩, Engine.stepsLeft_rounds rfl, Engine.secondBlockSteps, if_neg (by simp)]
    rfl
  · rw [if_neg (by simp [hf]), Engine.stepsLeft_idle rfl]
  · obtain ⟨-, -, -, -, hidle, -⟩ := absorbList_foldBlock_spec m (hp (by simp [hs]) hm)
    rw [if_neg (by simp [hm]), Engine.stepsLeft_idle hidle]

theorem Engine.stepsLeft_of_step (hp : e.PendFits) (h : engineStep? m e = some f) :
    e.stepsLeft = f.stepsLeft + 1 := by
  rcases engineStep_cases h with ⟨hs, rfl⟩ | ⟨hs, rfl⟩
  · exact Engine.stepsLeft_engineRound hs
  · exact Engine.stepsLeft_engineAccum hp hs

theorem Engine.PendFits.after_step (hp : e.PendFits) (h : engineStep? m e = some f) : f.PendFits := by
  rcases engineStep_cases h with ⟨hs, rfl⟩ | ⟨hs, rfl⟩
  · intro _ hm
    rw [engineRound_pend]
    exact hp (by simp [hs]) (by simpa using hm)
  · rcases engineAccum_cases m e with ⟨hm, -, he⟩ | ⟨-, -, he⟩ | ⟨hm, he⟩ <;> rw [he]
    · exact fun _ hn => absurd hm hn
    · exact fun hn _ => absurd rfl hn
    · obtain ⟨-, -, -, -, hidle, -⟩ := absorbList_foldBlock_spec m (hp (by simp [hs]) hm)
      exact fun hn _ => absurd hidle hn

/-- A run of engine steps takes one off at each, until the engine is idle. -/
theorem Engine.stepsLeft_engineRun (hp : e.PendFits) (k : Nat) : (engineRun m k e).stepsLeft = e.stepsLeft - k := by
  induction k generalizing e with
  | zero => rfl
  | succ k ih =>
    rw [engineRun]
    cases h : engineStep? m e with
    | none =>
      have hidle : e.stage = .idle := engineStep_eq_none_iff.mp h
      simp [Engine.stepsLeft_idle hidle]
    | some f =>
      rw [Engine.stepsLeft_of_step hp h]
      simpa using ih (hp.after_step h)

/-- BUSY = 1 for exactly as many steps as are left (R161.4). -/
theorem engineRun_busy_until (m : LenMode) (hp : e.PendFits) {n : Nat} (hn : e.stepsLeft = n) :
    (∀ k, k < n → (engineRun m k e).stage ≠ .idle) ∧ (engineRun m n e).stage = .idle := by
  simp only [ne_eq, ← Engine.stepsLeft_eq_zero_iff, Engine.stepsLeft_engineRun hp, hn]
  exact ⟨fun k hk => by omega, Nat.sub_self n⟩

/-- What every engine step keeps, a run of them keeps. -/
theorem engineRun_keeps {P : Engine → Prop} (hP : ∀ e f, P e → engineStep? m e = some f → P f) (k : Nat) (h : P e) :
    P (engineRun m k e) := by
  induction k generalizing e with
  | zero => exact h
  | succ k ih =>
    rw [engineRun]
    cases hf : engineStep? m e with
    | none => exact h
    | some f => exact ih (hP e f h hf)

end StepsLeft

/-! ### After FINAL (R156, R161.4) -/

theorem stepsLeft_finalCommand (m : LenMode) (e : Engine) :
    (finalCommand m e).stepsLeft = if e.cnt ≤ 55 then 65 else 130 := by
  rw [Engine.stepsLeft_rounds rfl, Engine.secondBlockSteps, finalCommand_rnd, finalCommand_fin2]
  by_cases h : e.cnt ≤ 55
  · rw [if_neg (by simp; omega), if_pos h]
    rfl
  · rw [if_pos ⟨rfl, by simp; omega⟩, if_neg h]
    rfl

/-- FINAL has been accepted, and while MODE is FINALIZING its blocks compress (R39.2). -/
def Engine.Finishing (e : Engine) : Prop := e.mode = .done ∨ e.mode = .finalizing ∧ e.stage ≠ .idle

theorem Engine.Finishing.after_step {m : LenMode} {e f : Engine} (h : e.Finishing) (hf : engineStep? m e = some f) :
    f.Finishing := by
  rcases engineStep_cases hf with ⟨hs, rfl⟩ | ⟨hs, rfl⟩
  · refine h.imp (fun hm => by simpa using hm) fun hm => ⟨by simpa using hm.1, ?_⟩
    rw [engineRound_stage, hs]
    split <;> simp
  · rcases engineAccum_cases m e with ⟨hm, -, he⟩ | ⟨-, -, he⟩ | ⟨hm, he⟩ <;> rw [he]
    · exact .inr ⟨hm, by simp⟩
    · exact .inl rfl
    · obtain ⟨-, hmode, -⟩ := absorbList_frame m e.pend (foldBlock e)
      exact .inl (hmode.trans (h.resolve_right fun hn => hm hn.1))

theorem engineRun_finalCommand_finishing (m : LenMode) (k : Nat) (e : Engine) :
    (engineRun m k (finalCommand m e)).Finishing :=
  engineRun_keeps (fun _ _ => Engine.Finishing.after_step) k (.inr ⟨rfl, by simp⟩)

/-- Settles O35: FINAL leaves that many steps, and an idle engine that is finishing is done. -/
theorem finalTakesSixtyFiveStepsPerBlock : Obligations.FinalTakesSixtyFiveStepsPerBlock := by
  intro lm e _ _ _ n
  obtain ⟨hbusy, hidle⟩ := engineRun_busy_until lm (e := finalCommand lm e) (fun _ hn => absurd rfl hn)
    (stepsLeft_finalCommand lm e)
  have hfin := engineRun_finalCommand_finishing lm n e
  exact ⟨hbusy, hidle, hfin.resolve_right fun hn => hn.2 hidle⟩

/-! ### After a PUSH that fills the block (R155, R161.4) -/

/-- The engine e with the accumulation step due, on the working variables q (R159). -/
def Engine.awaitAccum (e : Engine) (q : Quad) : Engine := { e with wv := q, rnd := 63, stage := .accum }

theorem engineRun_succ_of_accum {m : LenMode} {n : Nat} {e f : Engine} (hn : engineRun m n e = f)
    (hf : f.stage = .accum) : engineRun m (n + 1) e = engineAccum m f := by
  rw [engineRun_add m n 1, hn, engineRun, engineStep_accum hf]
  rfl

/-- The 65th step of a block that starts is its accumulation (R159, R160). -/
theorem engineRun_block (lm : LenMode) {e : Engine} (hs : e.stage = .rounds) (hr : e.rnd = 0) (hw : e.wv = e.acc) :
    engineRun lm 65 e = engineAccum lm (e.awaitAccum (rounds64 e.acc (Memory.read e.buf))) := by
  have h64 : engineRun lm 64 e = e.awaitAccum (rounds64 e.acc (Memory.read e.buf)) :=
    sixtyFourStepsComputeRounds64 lm e hs hr hw
  exact engineRun_succ_of_accum h64 rfl

/-- The accumulation step of a full block before FINAL, for any working variables q. -/
theorem engineAccum_awaitAccum (lm : LenMode) {e : Engine} (q : Quad) (hm : e.mode = .absorb)
    (hp : e.pend.length ≤ 63) :
    let f := engineAccum lm (e.awaitAccum q)
    f.mode = .absorb ∧ f.pend = [] ∧ f.cnt = e.pend.length ∧ f.acc = accumulate e.acc q ∧
      f.buf = Memory.writeBytes e.buf 0 e.pend := by
  obtain ⟨hbuf, hcnt, -, hpend, -⟩ := absorbList_foldBlock_spec lm (e := e.awaitAccum q) hp
  obtain ⟨hacc, hmode, -⟩ := absorbList_frame lm (e.awaitAccum q).pend (foldBlock (e.awaitAccum q))
  have hmode' : (e.awaitAccum q).mode ≠ .finalizing := by simp [Engine.awaitAccum, hm]
  rw [engineAccum_absorb hmode']
  exact ⟨hmode.trans hm, hpend, hcnt, hacc, hbuf⟩

/-- Settles O36: the block takes 65 steps, and the last one absorbs what waits in PEND. -/
theorem fillingPushTakesSixtyFiveSteps : Obligations.FillingPushTakesSixtyFiveSteps := by
  intro lm e nb hi hm hc hfull
  obtain ⟨-, -, -, -, -, hstart⟩ := pushCommand_spec lm nb hi hc
  obtain ⟨hs, hwv, hr⟩ := hstart hfull
  obtain ⟨hacc, hmode', -⟩ := absorbList_frame lm (dataBytes e.data (pushCount nb)) e
  have hmode : (pushCommand lm nb e).mode = .absorb := hmode'.trans hm
  have hmin : min (pushCount nb) (64 - e.cnt) = 64 - e.cnt := by rw [pushCount]; omega
  have hwait : (pushCommand lm nb e).pend.length = e.cnt + (nb.toNat + 1) - 64 := by
    rw [pushCommand_pend_length lm nb hi hc, hmin, pushCount]; omega
  have hfits : (pushCommand lm nb e).pend.length ≤ 63 := by have := nb.isLt; omega
  have hsteps : (pushCommand lm nb e).stepsLeft = 65 := by
    rw [Engine.stepsLeft_rounds hs, hr, Engine.secondBlockSteps, if_neg (by simp [hmode])]; rfl
  obtain ⟨hbusy, hidle⟩ := engineRun_busy_until lm (fun _ _ => hfits) hsteps
  have hblock := engineRun_block lm hs hr (hwv.trans hacc.symm)
  obtain ⟨hmode65, hpend65, hcnt65, hacc65, hbuf65⟩ := engineAccum_awaitAccum lm _ hmode hfits
  rw [← hblock] at hmode65 hpend65 hcnt65 hacc65 hbuf65
  refine ⟨hbusy, hidle, hmode65, hpend65, hcnt65.trans hwait, ?_, fun j hj => ?_⟩
  · rw [hacc65, compressBlock, pushCommand_acc]
  · have hbyte := pushCommand_pend_getElem? lm nb hi hc (j := j) (by rw [hmin, pushCount]; omega)
    rw [hbuf65, Memory.read_writeBytes, if_pos (by omega), Nat.sub_zero, List.getD_eq_getElem?_getD, hbyte, hmin]
    rfl

end Sys2Proof.Machine
end

section
/-! PROOFS. Fairness as the turns give it (R161.3, log entry 6): the host's turns leave a busy engine its step. -/

namespace Sys2Proof.Machine

/-! ### Runs of the machine -/

theorem core_run_succ {s t : State} (h : step s = .next t) (n : Nat) : core.run (n + 1) s = core.run n t := by
  have hstep : core.step s = .next t := h
  simp only [Host.Core.run, hstep]

theorem nextTurn_of_cons {s : State} {u : Turn} {us : List Turn} (h : s.turns = u :: us) : nextTurn s = u := by
  simp only [nextTurn, h]

theorem nextTurn_of_nil {s : State} (h : s.turns = []) : nextTurn s = if s.engine.busy then .engine else .host := by
  simp only [nextTurn, h]

/-! ### A host turn while BUSY = 1 -/

section BusyHost

variable {s : State}

/-- A host that keeps its duty is not stopped by the bus, and an engine with room stops no command (R52, R153). -/
theorem step_host_next (ht : nextTurn s = .host) (hroom : s.engine.stage = .idle → s.engine.cnt < 64)
    (hw : ∀ op ∈ s.prog, WellAddressed s.config op) : ∃ t, step s = .next t := by
  cases hp : s.prog with
  | nil => exact ⟨s.withTurns s.turns.tail, by rw [step_host ht, hostTurn, State.withTurns_prog, hp]⟩
  | cons op p =>
    obtain ⟨r, hr⟩ := hw op (by simp [hp])
    rw [step_transaction ⟨ht, hp⟩, hr, route_regAccess]
    exact transaction_next (s := s.withTurns s.turns.tail) hroom p op r

/-- The engine's next step is the same in f as in e: STAGE and what a round or an accumulation step computes from. -/
def Engine.KeepsBlock (e f : Engine) : Prop :=
  f.stage = e.stage ∧ f.wv = e.wv ∧ f.rnd = e.rnd ∧ f.buf = e.buf ∧ f.acc = e.acc

theorem Engine.KeepsBlock.trans {e f g : Engine} (h : e.KeepsBlock f) (h' : f.KeepsBlock g) : e.KeepsBlock g := by
  obtain ⟨hstage, hwv, hrnd, hbuf, hacc⟩ := h
  obtain ⟨hstage', hwv', hrnd', hbuf', hacc'⟩ := h'
  exact ⟨hstage'.trans hstage, hwv'.trans hwv, hrnd'.trans hrnd, hbuf'.trans hbuf, hacc'.trans hacc⟩

/-- All that a host can do to a busy engine is to write DATA and to set ERR_BUSY (R151, R152). -/
theorem EngineEvent.keepsBlock {f : Engine} (h : EngineEvent s f) (ht : nextTurn s = .host)
    (hb : s.engine.stage ≠ .idle) : s.engine.KeepsBlock f := by
  cases h with
  | same | data | dropped => exact ⟨rfl, rfl, rfl, rfl, rfl⟩
  | reset hr => cases ht.symm.trans hr
  | round he | accum he => cases ht.symm.trans he
  | rejected hi | init _ hi | push _ _ hi | final _ hi => exact absurd hi hb

theorem step_wellAddressed {t : State} (h : step s = .next t) (hw : ∀ op ∈ s.prog, WellAddressed s.config op) :
    ∀ op ∈ t.prog, WellAddressed t.config op := by
  have hev : Event s t := step_event h
  rw [hev.config_eq]
  rcases hev.prog_eq_or_tail with hp | hp <;> rw [hp]
  · exact hw
  · exact fun op hop => hw op (List.mem_of_mem_tail hop)

end BusyHost

/-! ### The engine's turn comes (R161.3) -/

/-- Each listed turn before the engine's is the host's; once none is listed, the engine moves. -/
theorem reaches_engineTurn (us : List Turn) {s : State} (hus : s.turns = us) (hb : s.engine.stage ≠ .idle)
    (hr : .reset ∉ us) (hw : ∀ op ∈ s.prog, WellAddressed s.config op) :
    ∃ n t, n ≤ us.length ∧ core.run n s = .next t ∧ nextTurn t = .engine ∧ s.engine.KeepsBlock t.engine := by
  induction us generalizing s with
  | nil =>
    have ht : nextTurn s = .engine := by rw [nextTurn_of_nil hus, if_pos ((Engine.busy_eq_true _).mpr hb)]
    exact ⟨0, s, Nat.le_refl 0, rfl, ht, rfl, rfl, rfl, rfl, rfl⟩
  | cons u us ih =>
    have ht : nextTurn s = u := nextTurn_of_cons hus
    cases u with
    | engine => exact ⟨0, s, Nat.zero_le _, rfl, ht, rfl, rfl, rfl, rfl, rfl⟩
    | reset => exact absurd List.mem_cons_self hr
    | host =>
      obtain ⟨t, hst⟩ := step_host_next ht (fun hi => absurd hi hb) hw
      have hkeep : s.engine.KeepsBlock t.engine := (step_engineEvent hst).keepsBlock ht hb
      have hts : t.turns = us := by rw [(step_event hst).turns_eq, hus, List.tail_cons]
      obtain ⟨n, v, hn, hrun, hv, hkeep'⟩ := ih hts (by rw [hkeep.1]; exact hb)
        (fun hmem => hr (List.mem_cons_of_mem _ hmem)) (step_wellAddressed hst hw)
      exact ⟨n + 1, v, Nat.succ_le_succ hn, (core_run_succ hst n).trans hrun, hv, hkeep.trans hkeep'⟩

/-- Settles O49: along the list of turns. -/
theorem enabledEngineStepIsTaken : Obligations.EnabledEngineStepIsTaken :=
  fun s hb hr hw => reaches_engineTurn s.turns rfl hb hr hw

end Sys2Proof.Machine
end

section
/-! PROOFS. FINAL brings the engine to DIGEST_FN of what it has absorbed (R142, R163). -/

namespace Sys2Proof.Machine

/-- The engine meets the invariant and has taken the message m. -/
structure Computing (lm : LenMode) (m : List Byte) (e : Engine) : Prop where
  inv : EngineInv e
  tracks : Tracks lm m e

section Computing

variable {lm : LenMode} {m : List Byte} {e f : Engine} (h : Computing lm m e)
include h

theorem Computing.after_step (hf : engineStep? lm e = some f) : Computing lm m f := by
  rcases engineStep_cases hf with ⟨hs, rfl⟩ | ⟨hs, rfl⟩
  · exact ⟨h.inv.after_round hs, h.tracks.after_round hs⟩
  · exact ⟨h.inv.after_accum lm hs, h.tracks.after_accum h.inv hs⟩

theorem Computing.after_push (nb : BitVec 2) (hi : e.stage = .idle) (hm : e.mode = .absorb) :
    Computing lm (m ++ dataBytes e.data (pushCount nb)) (pushCommand lm nb e) := by
  obtain ⟨-, hp, -⟩ := h.inv.idle hi
  exact ⟨h.inv.after_absorb lm hi hm (by simpa using pushCount_le nb), h.tracks.after_absorb _ hi hm hp⟩

theorem Computing.after_final (hi : e.stage = .idle) (hm : e.mode = .absorb) :
    Computing lm m (finalCommand lm e) := by
  obtain ⟨-, hp, -⟩ := h.inv.idle hi
  exact ⟨h.inv.after_final lm hi hm, h.tracks.after_final hi hm hp⟩

theorem Computing.withData (v : Word) : Computing lm m (e.withData v) :=
  ⟨h.inv.of_eq rfl rfl rfl rfl rfl rfl Iff.rfl, h.tracks.withData v⟩

theorem Computing.acc_of_done (hm : e.mode = .done) : e.acc = digestState lm m :=
  (blockOk_done hm).mp h.tracks.block

theorem Computing.absorbedCount_of_idle (hi : e.stage = .idle) : absorbedCount m e = m.length := by
  obtain ⟨-, hp, -⟩ := h.inv.idle hi
  rw [absorbedCount, hp, List.length_nil, Nat.sub_zero]

end Computing

/-- Once DONE = 1 the digest registers show the accumulators (R33). -/
theorem regRead_digest_of_done (c : Config) {e : Engine} (hm : e.mode = .done) :
    regRead c e .digest0 = e.acc.a ∧ regRead c e .digest1 = e.acc.b ∧ regRead c e .digest2 = e.acc.c ∧
      regRead c e .digest3 = e.acc.d := by
  simp [regRead, digestWord, hm]

/-- Settles O52: CNT is the length of m modulo 64, so the run is that of O35, and its steps keep the engine on m. -/
theorem finalYieldsDigestOfMessage : Obligations.FinalYieldsDigestOfMessage := by
  intro c m e hinv htr hi hm f
  have h : Computing c.lenMode m e := ⟨hinv, htr⟩
  have hcnt : e.cnt = m.length % 64 := by rw [htr.cnt_of_idle hm hi, h.absorbedCount_of_idle hi]
  obtain ⟨-, hidle, hdone⟩ := finalTakesSixtyFiveStepsPerBlock c.lenMode e hi hm (by omega)
  rw [hcnt] at hidle hdone
  have hf : Computing c.lenMode m f :=
    engineRun_keeps (fun _ _ h => h.after_step) _ (h.after_final hi hm)
  obtain ⟨ha, hb, hc, hd⟩ := regRead_digest_of_done c hdone
  exact ⟨hdone, hidle, by rw [ha, hb, hc, hd, digestFn, ← hf.acc_of_done hdone]⟩

end Sys2Proof.Machine
end

section
/-! PROOFS. The host program of R163 from its first statement to DONE: what holds of the engine at each statement, that
every event keeps it and comes nearer to the end, and that what is observed there is DIGEST_FN of the message. -/

namespace Sys2Proof.Machine

/-! ### What STATUS tells the host (R29, R78) -/

/-- The two values the host's polls wait for (R78). -/
theorem statusWord_polls : ∀ lenOvf errBusy errCmd done busy,
    (statusWord lenOvf errBusy errCmd done busy &&& 0x00000001 = 0x00000000 ↔ busy = false) ∧
      (statusWord lenOvf errBusy errCmd done busy &&& 0x00000003 = 0x00000002 ↔ done = true ∧ busy = false) := by
  decide

theorem status_and_busy (e : Engine) : e.status &&& 0x00000001 = 0x00000000 ↔ e.stage = .idle := by
  rw [e.status_eq, (statusWord_polls ..).1, Engine.busy_eq_false]

theorem status_and_done (e : Engine) :
    e.status &&& 0x00000003 = 0x00000002 ↔ e.mode = .done ∧ e.stage = .idle := by
  rw [e.status_eq, (statusWord_polls ..).2, Engine.isDone_eq_true, Engine.busy_eq_false]

/-! ### The engine at each statement -/

/-- The engine has taken the message m, and no command of it was rejected or dropped. -/
structure OnCourse (lm : LenMode) (m : List Byte) (e : Engine) : Prop extends Computing lm m e where
  errCmd : e.errCmd = false
  errBusy : e.errBusy = false

/-- The command i is due, with DATA = d and the statements `rest` after it, where m of the message M is taken. -/
inductive CommandDue (M m : List Byte) (d : Word) : Instr → List Stmt → Prop
  | push (nb : BitVec 2) (gs : List (Word × BitVec 2)) (hM : m ++ (dataBytes d (pushCount nb) ++ messageOf gs) = M) :
    CommandDue M m d (.push nb) (messageStmts gs)
  | final (hM : m = M) : CommandDue M m d .final [stmtWaitDone]

/-- What holds of the engine where these statements of R163's program for the message M are left. -/
inductive Course (lm : LenMode) (M : List Byte) (e : Engine) : List Stmt → Prop
  | data (g : Word × BitVec 2) (gs : List (Word × BitVec 2)) (m : List Byte) (h : OnCourse lm m e)
    (hm : e.mode = .absorb) (hM : m ++ (dataBytes g.1 (pushCount g.2) ++ messageOf gs) = M) :
    Course lm M e (.wr .data g.1 :: stmtWaitIdle :: .wr .cmd (encode (.push g.2)) :: messageStmts gs)
  | wait (i : Instr) (rest : List Stmt) (m : List Byte) (h : OnCourse lm m e) (hm : e.mode = .absorb)
    (hd : CommandDue M m e.data i rest) : Course lm M e (stmtWaitIdle :: .wr .cmd (encode i) :: rest)
  | command (i : Instr) (rest : List Stmt) (m : List Byte) (h : OnCourse lm m e) (hm : e.mode = .absorb)
    (hd : CommandDue M m e.data i rest) (hi : e.stage = .idle) : Course lm M e (.wr .cmd (encode i) :: rest)
  | waitDone (h : OnCourse lm M e) (hm : e.mode ≠ .absorb) : Course lm M e [stmtWaitDone]
  | done (h : OnCourse lm M e) (hm : e.mode = .done) : Course lm M e []

/-- R163's program begins, group by group, with DATA, and after the last group with the wait before FINAL. -/
theorem Course.of_messageStmts {lm : LenMode} {M m : List Byte} {e : Engine} (h : OnCourse lm m e)
    (hm : e.mode = .absorb) (gs : List (Word × BitVec 2)) (hM : m ++ messageOf gs = M) :
    Course lm M e (messageStmts gs) := by
  cases gs with
  | nil => exact .wait .final _ m h hm (.final ((List.append_nil m).symm.trans hM))
  | cons g gs => exact .data g gs m h hm hM

section Steps

variable {lm : LenMode} {m M : List Byte} {e f : Engine}

/-! ### The engine's own steps -/

theorem engineStep_data (hf : engineStep? lm e = some f) : f.data = e.data := by
  rcases engineStep_cases hf with ⟨-, rfl⟩ | ⟨-, rfl⟩
  · exact engineRound_data e
  · exact engineAccum_data lm e

/-- MODE leaves ABSORB by FINAL only (R28, R156). -/
theorem engineStep_absorb_iff (hf : engineStep? lm e = some f) : f.mode = .absorb ↔ e.mode = .absorb := by
  rcases engineStep_cases hf with ⟨-, rfl⟩ | ⟨-, rfl⟩
  · rw [engineRound_mode]
  · rcases engineAccum_cases lm e with ⟨hm, -, h⟩ | ⟨hm, -, h⟩ | ⟨-, h⟩ <;> rw [h]
    · rfl
    · simp [hm]
    · obtain ⟨-, hmode, -⟩ := absorbList_frame lm e.pend (foldBlock e)
      rw [hmode, foldBlock_mode]

theorem OnCourse.after_step (h : OnCourse lm m e) (hf : engineStep? lm e = some f) : OnCourse lm m f := by
  refine ⟨h.toComputing.after_step hf, ?_, ?_⟩ <;> rcases engineStep_cases hf with ⟨-, rfl⟩ | ⟨-, rfl⟩
  · exact (engineRound_errCmd e).trans h.errCmd
  · obtain ⟨-, -, herr, -⟩ := engineAccum_frame lm e
    exact herr.trans h.errCmd
  · exact (engineRound_errBusy e).trans h.errBusy
  · obtain ⟨-, -, -, herr, -⟩ := engineAccum_frame lm e
    exact herr.trans h.errBusy

theorem Course.after_step {p : List Stmt} (h : Course lm M e p) (hf : engineStep? lm e = some f) :
    Course lm M f p := by
  have hbusy : e.stage ≠ .idle := fun hi => by cases (engineStep_idle hi).symm.trans hf
  cases h with
  | data g gs m h hm hM => exact .data g gs m (h.after_step hf) ((engineStep_absorb_iff hf).mpr hm) hM
  | wait i rest m h hm hd =>
    rw [← engineStep_data hf] at hd
    exact .wait i rest m (h.after_step hf) ((engineStep_absorb_iff hf).mpr hm) hd
  | waitDone h hm => exact .waitDone (h.after_step hf) (mt (engineStep_absorb_iff hf).mp hm)
  | command _ _ _ _ _ _ hi => exact absurd hi hbusy
  | done h hm => exact absurd (h.inv.done hm) hbusy

/-! ### The host's statements -/

theorem OnCourse.withData (h : OnCourse lm m e) (v : Word) : OnCourse lm m (e.withData v) :=
  ⟨h.toComputing.withData v, h.errCmd, h.errBusy⟩

/-- The command that is due takes its bytes, or makes the whole message final. -/
theorem OnCourse.after_command {i : Instr} {rest : List Stmt} (h : OnCourse lm m e) (hm : e.mode = .absorb)
    (hi : e.stage = .idle) (hd : CommandDue M m e.data i rest) : Course lm M (acceptedCommand lm i e) rest := by
  cases hd with
  | push nb gs hM =>
    obtain ⟨-, hmode, -, -, herrCmd, herrBusy, -⟩ := absorbList_frame lm (dataBytes e.data (pushCount nb)) e
    have hpush : OnCourse lm (m ++ dataBytes e.data (pushCount nb)) (pushCommand lm nb e) :=
      ⟨h.toComputing.after_push nb hi hm, herrCmd.trans h.errCmd, herrBusy.trans h.errBusy⟩
    exact .of_messageStmts hpush (hmode.trans hm) gs ((List.append_assoc ..).trans hM)
  | final hM =>
    subst hM
    exact .waitDone ⟨h.toComputing.after_final hi hm, h.errCmd, h.errBusy⟩ (by simp [acceptedCommand])

end Steps

section HostStep

variable {s : State} {M : List Byte}

/-- A poll of STATUS that an idle engine lets pass: it passes, or the engine is busy and it stays (R77). -/
theorem step_pollStatus {mask val : Word} {p : List HostOp}
    (hmoves : HostMoves s (.poll (regAccess s.config.engineBase .status) mask val) p)
    (hidle : s.engine.stage = .idle → s.engine.status &&& mask = val) :
    (s.engine.status &&& mask = val ∧ step s = .next ((s.withTurns s.turns.tail).withProg p)) ∨
      (s.engine.stage ≠ .idle ∧ step s = .next (s.withTurns s.turns.tail)) := by
  rw [step_poll hmoves]
  by_cases hv : regRead s.config s.engine .status &&& mask = val
  · exact .inl ⟨hv, if_pos hv⟩
  · exact .inr ⟨fun hi => hv (hidle hi), if_neg hv⟩

/-- One host turn takes the first statement off and goes on, or it is a poll that waits for the engine. -/
theorem Course.host_step {x : Stmt} {q : List Stmt} (h : Course s.config.lenMode M s.engine (x :: q))
    (hmoves : HostMoves s (assembleStmt s.config.engineBase x) (assemble s.config.engineBase q)) :
    ∃ t, step s = .next t ∧
      ((Course s.config.lenMode M t.engine q ∧ t.prog = assemble s.config.engineBase q) ∨
        (s.engine.stage ≠ .idle ∧ t.engine = s.engine ∧ t.prog = s.prog)) := by
  cases h with
  | data g gs m h hm hM =>
    exact ⟨_, step_write hmoves, .inl ⟨.wait _ _ m (h.withData g.1) hm (.push g.2 gs hM), rfl⟩⟩
  | wait i rest m h hm hd =>
    rcases step_pollStatus hmoves (status_and_busy s.engine).mpr with ⟨hv, hst⟩ | ⟨hb, hst⟩
    · exact ⟨_, hst, .inl ⟨.command i rest m h hm hd ((status_and_busy s.engine).mp hv), rfl⟩⟩
    · exact ⟨_, hst, .inr ⟨hb, rfl, rfl⟩⟩
  | command i rest m h hm hd hi =>
    obtain ⟨hcnt, -⟩ := h.inv.idle hi
    have hexec := exec_of_accepted (i := i) (s := (s.withTurns s.turns.tail).withProg (assemble s.config.engineBase q))
      hi fun _ => ⟨by simp [hm], Nat.lt_succ_of_le hcnt⟩
    exact ⟨_, ((step_write hmoves).trans (command_of_decode (decode_encode i) _)).trans hexec,
      .inl ⟨h.after_command hm hi hd, rfl⟩⟩
  | waitDone h hm =>
    have hidle (hi : s.engine.stage = .idle) : s.engine.status &&& 0x00000003 = 0x00000002 :=
      (status_and_done s.engine).mpr ⟨Classical.byContradiction fun hd => hm (h.inv.mode_absorb hi hd), hi⟩
    rcases step_pollStatus hmoves hidle with ⟨hv, hst⟩ | ⟨hb, hst⟩
    · exact ⟨_, hst, .inl ⟨.done h ((status_and_done s.engine).mp hv).1, rfl⟩⟩
    · exact ⟨_, hst, .inr ⟨hb, rfl, rfl⟩⟩

end HostStep

/-! ### Every event comes nearer to the end -/

/-- What is left of a run: the listed turns, then the host's statements, then the engine's steps. -/
def State.remaining (s : State) : ℕ ×ₗ ℕ ×ₗ ℕ :=
  toLex (s.turns.length, toLex (s.prog.length, s.engine.stepsLeft))

/-- An event that uses up a listed turn brings the end nearer; once no turn is listed, a statement or a step must. -/
theorem State.remaining_lt {s t : State} (hts : t.turns = s.turns.tail)
    (h : s.turns = [] → t.prog.length < s.prog.length ∨
      t.prog.length = s.prog.length ∧ t.engine.stepsLeft < s.engine.stepsLeft) : t.remaining < s.remaining := by
  simp only [State.remaining, Prod.Lex.toLex_lt_toLex, hts, List.length_tail]
  cases hus : s.turns with
  | nil => exact .inr ⟨rfl, h hus⟩
  | cons u us => exact .inl (Nat.lt_succ_self us.length)

/-- The machine runs R163's program for the message M, and no reset is listed. -/
structure Underway (c : Config) (M : List Byte) (s : State) : Prop where
  config : s.config = c
  turns : .reset ∉ s.turns
  course : ∃ p, s.prog = assemble c.engineBase p ∧ Course c.lenMode M s.engine p

theorem reset_mem_of_nextTurn {s : State} (h : nextTurn s = .reset) : .reset ∈ s.turns := by
  cases hus : s.turns with
  | nil =>
    rw [nextTurn_of_nil hus] at h
    split at h <;> cases h
  | cons u us =>
    rw [nextTurn_of_cons hus] at h
    exact h ▸ List.mem_cons_self

theorem Course.pendFits {lm : LenMode} {M : List Byte} {e : Engine} {p : List Stmt} (h : Course lm M e p) :
    e.PendFits := by
  have hinv : EngineInv e := by
    cases h with
    | data _ _ _ h | wait _ _ _ h | command _ _ _ h | waitDone h | done h => exact h.inv
  exact fun _ _ => Nat.le_trans hinv.pendLe (by decide)

section Progress

variable {c : Config} {M : List Byte} {s t : State} (h : Underway c M s)
include h

theorem Underway.after_step {p : List Stmt} (hst : step s = .next t) (hp : t.prog = assemble c.engineBase p)
    (hcourse : Course c.lenMode M t.engine p) : Underway c M t where
  config := (step_config_eq hst).trans h.config
  turns := by rw [(step_event hst).turns_eq]; exact fun hmem => h.turns (List.mem_of_mem_tail hmem)
  course := ⟨p, hp, hcourse⟩

/-- The engine's turn: its step, or the turn passes because a listed one found it idle. -/
theorem Underway.engine_step (ht : nextTurn s = .engine) :
    ∃ t, step s = .next t ∧ Underway c M t ∧ t.remaining < s.remaining := by
  obtain ⟨p, hp, hcourse⟩ := h.course
  obtain rfl := h.config
  cases hf : engineStep? s.config.lenMode s.engine with
  | none =>
    have hi : s.engine.stage = .idle := engineStep_eq_none_iff.mp hf
    have hst := step_engineIdle ht hi
    refine ⟨_, hst, h.after_step hst hp hcourse, State.remaining_lt rfl fun hus => ?_⟩
    rw [nextTurn_of_nil hus, if_neg (by simpa using hi)] at ht
    cases ht
  | some f =>
    have hst := step_engineStep ht hf
    refine ⟨_, hst, h.after_step hst hp (hcourse.after_step hf), State.remaining_lt rfl fun _ => .inr ⟨rfl, ?_⟩⟩
    rw [Engine.stepsLeft_of_step hcourse.pendFits hf]
    exact Nat.lt_succ_self _

/-- The host's turn: a statement, or a poll that a listed turn brought while the engine is busy. -/
theorem Underway.host_step (ht : nextTurn s = .host) (hleft : s.prog ≠ []) :
    ∃ t, step s = .next t ∧ Underway c M t ∧ t.remaining < s.remaining := by
  obtain ⟨p, hp, hcourse⟩ := h.course
  obtain rfl := h.config
  cases p with
  | nil => exact absurd hp hleft
  | cons x q =>
    obtain ⟨t, hst, ⟨hnext, hprog⟩ | ⟨hb, hengine, hprog⟩⟩ := hcourse.host_step ⟨ht, hp⟩
    · refine ⟨t, hst, h.after_step hst hprog hnext, State.remaining_lt (step_event hst).turns_eq fun _ => .inl ?_⟩
      rw [hprog, hp]
      exact Nat.lt_succ_self _
    · refine ⟨t, hst, h.after_step hst (hprog.trans hp) (by rwa [hengine]),
        State.remaining_lt (step_event hst).turns_eq fun hus => ?_⟩
      rw [nextTurn_of_nil hus, if_pos (by simpa using hb)] at ht
      cases ht

theorem Underway.progress (hleft : s.prog ≠ []) :
    ∃ t, step s = .next t ∧ Underway c M t ∧ t.remaining < s.remaining := by
  cases ht : nextTurn s with
  | reset => exact absurd (reset_mem_of_nextTurn ht) h.turns
  | engine => exact h.engine_step ht
  | host => exact h.host_step ht hleft

theorem Underway.reaches_end : ∃ n t, core.run n s = .next t ∧ Underway c M t ∧ t.prog = [] := by
  induction hr : s.remaining using WellFoundedLT.induction generalizing s with
  | ind r ih =>
    subst hr
    by_cases hleft : s.prog = []
    · exact ⟨0, s, rfl, h, hleft⟩
    · obtain ⟨t, hst, ht, hlt⟩ := h.progress hleft
      obtain ⟨n, u, hrun, hu⟩ := ih _ hlt ht rfl
      exact ⟨n + 1, u, (core_run_succ hst n).trans hrun, hu⟩

theorem Underway.of_end (hend : s.prog = []) : OnCourse c.lenMode M s.engine ∧ s.engine.mode = .done := by
  obtain ⟨p, hp, hcourse⟩ := h.course
  obtain rfl : p = [] := List.map_eq_nil_iff.mp (hp.symm.trans hend)
  cases hcourse with
  | done h hm => exact ⟨h, hm⟩

end Progress

/-! ### What is observed at the end -/

/-- After the whole message STATUS shows DONE, and LEN_OVF where the length overflows (R97, R163). -/
theorem OnCourse.status_of_done {lm : LenMode} {M : List Byte} {e : Engine} (h : OnCourse lm M e)
    (hm : e.mode = .done) : e.status = if lengthOverflow lm M.length then 0x00000012 else 0x00000002 := by
  have hi : e.stage = .idle := h.inv.done hm
  have hovf : e.lenOvf = lengthOverflow lm M.length := by
    rw [h.tracks.lenOvf, h.toComputing.absorbedCount_of_idle hi]
  rw [e.status_eq, h.errCmd, h.errBusy, (Engine.isDone_eq_true e).mpr hm, (Engine.busy_eq_false e).mpr hi, hovf]
  cases lengthOverflow lm M.length with
  | true | false => rfl

/-! ### From any fresh computation -/

theorem Fresh.inv {e : Engine} (h : Fresh e) (hwf : Memory.wf e.buf = true) : EngineInv e where
  bufWf := hwf
  cntLe := by simp [h.cnt]
  pendLe := by simp [h.pend]
  idle := by simp [h.cnt, h.pend, h.fin2]
  finalizing := by simp [h.mode]
  done := by simp [h.mode]
  pend := by simp [h.pend]
  fin2 := by simp [h.fin2]
  full := by simp [h.stage]
  count := by simp [h.cnt, h.bitlen]
  countFinal := by simp [h.mode]

/-- The state with no byte of BUF listed. -/
def State.clearBuf (s : State) : State := s.withEngine { s.engine with buf := [] }

theorem Fresh.clearBuf {s : State} (h : Fresh s.engine) : Fresh s.clearBuf.engine :=
  ⟨h.acc, h.cnt, h.bitlen, h.pend, h.stage, h.mode, h.fin2, h.errCmd, h.errBusy, h.lenOvf⟩

/-- A fresh computation has no byte of its block in place, so no host can tell what BUF holds (R40, R145). -/
theorem Fresh.agree_clearBuf {s : State} (h : Fresh s.engine) : Agree s.clearBuf s where
  engine := { Engine.Agree.refl s.engine with
    buf := fun k _ hk => absurd (hk h.stage) (by simp [State.clearBuf, h.cnt]) }
  config := rfl
  prog := rfl
  temps := rfl
  turns := rfl

/-- States that agree run alike (R145). -/
theorem Agree.run_next {s s' t : State} (h : Agree s s') {n : Nat} (hrun : core.run n s = .next t) :
    ∃ t', core.run n s' = .next t' ∧ Agree t t' := by
  induction n generalizing s s' with
  | zero =>
    obtain rfl : s = t := Host.Outcome.next.inj hrun
    exact ⟨s', rfl, h⟩
  | succ n ih =>
    have hstep := unspecifiedElementsStayHidden s s' h
    cases hs : step s with
    | next u =>
      rw [hs] at hstep
      cases hs' : step s' with
      | next u' =>
        rw [hs'] at hstep
        rw [core_run_succ hs] at hrun
        rw [core_run_succ hs']
        exact ih hstep hrun
      | fault r | refused r =>
        rw [hs'] at hstep
        exact hstep.elim
    | fault r | refused r =>
      have hcore : core.step s = step s := rfl
      simp [Host.Core.run, hcore, hs] at hrun

/-- Settles O53: the program runs to its end from the fresh computation with nothing listed in BUF, where the invariant
holds, and so from every state that agrees with it. -/
theorem commandSequenceComputesDigest : Obligations.CommandSequenceComputesDigest := by
  intro s gs hfresh hturns hprog
  have hstart : OnCourse s.config.lenMode [] s.clearBuf.engine :=
    ⟨⟨hfresh.clearBuf.inv rfl, hfresh.clearBuf.tracks _⟩, hfresh.errCmd, hfresh.errBusy⟩
  have hway : Underway s.config (messageOf gs) s.clearBuf :=
    ⟨rfl, hturns, messageStmts gs, hprog, .of_messageStmts hstart hfresh.mode gs rfl⟩
  obtain ⟨n, t, hrun, ht, hend⟩ := hway.reaches_end
  obtain ⟨hcourse, hdone⟩ := ht.of_end hend
  have hfinal : Final t := ⟨hend, hcourse.inv.done hdone⟩
  obtain ⟨ha, hb, hc, hd⟩ := regRead_digest_of_done t.config hdone
  rw [hcourse.toComputing.acc_of_done hdone] at ha hb hc hd
  obtain ⟨t', hrun', hagree⟩ := hfresh.agree_clearBuf.run_next hrun
  obtain ⟨-, hiff⟩ := agreeingStatesObserveTheSame t t' hagree
  have hread (r : Reg) := (hagree.regRead_eq r).symm
  exact ⟨n, t', hrun', hiff.mp hfinal, hagree.engine.mode.symm.trans hdone,
    (hread .status).trans (hcourse.status_of_done hdone), (hread .digest0).trans ha, (hread .digest1).trans hb,
    (hread .digest2).trans hc, (hread .digest3).trans hd⟩

end Sys2Proof.Machine
end

section
/-! PROOFS. The detected conditions (R190 to R195): the sticky flags and what writes them, and that no command stops. -/

namespace Sys2Proof.Machine

/-! ### The flags after a PUSH and after an accumulation step (R155, R160) -/

@[simp] theorem pushCommand_errCmd (m : LenMode) (nb : BitVec 2) (e : Engine) :
    (pushCommand m nb e).errCmd = e.errCmd := by
  obtain ⟨-, -, -, -, herrCmd, -, -⟩ := absorbList_frame m (dataBytes e.data (pushCount nb)) e
  exact herrCmd

@[simp] theorem pushCommand_errBusy (m : LenMode) (nb : BitVec 2) (e : Engine) :
    (pushCommand m nb e).errBusy = e.errBusy := by
  obtain ⟨-, -, -, -, -, herrBusy, -⟩ := absorbList_frame m (dataBytes e.data (pushCount nb)) e
  exact herrBusy

@[simp] theorem engineAccum_errCmd (m : LenMode) (e : Engine) : (engineAccum m e).errCmd = e.errCmd := by
  obtain ⟨-, -, herrCmd, -, -⟩ := engineAccum_frame m e
  exact herrCmd

@[simp] theorem engineAccum_errBusy (m : LenMode) (e : Engine) : (engineAccum m e).errBusy = e.errBusy := by
  obtain ⟨-, -, -, herrBusy, -⟩ := engineAccum_frame m e
  exact herrBusy

/-- Neither end of the padding touches LEN_OVF, and absorbing never clears it (R153). -/
theorem engineAccum_lenOvf_sticky {m : LenMode} {e : Engine} (h : e.lenOvf = true) :
    (engineAccum m e).lenOvf = true := by
  rcases engineAccum_cases m e with ⟨-, -, h'⟩ | ⟨-, -, h'⟩ | ⟨-, h'⟩ <;> rw [h']
  · exact h
  · exact h
  · exact absorbList_lenOvf_sticky h

/-- An accumulation step with no byte waiting counts none, so it leaves LEN_OVF alone (R153, R160). -/
theorem engineAccum_lenOvf_of_pend_nil (m : LenMode) {e : Engine} (hp : e.pend = []) :
    (engineAccum m e).lenOvf = e.lenOvf := by
  rcases engineAccum_cases m e with ⟨-, -, h⟩ | ⟨-, -, h⟩ | ⟨-, h⟩ <;> rw [h]
  · rfl
  · rfl
  · rw [hp]
    rfl

/-! ### What clears a flag (R191, R195) -/

/-- An event that is neither a reset nor an INIT leaves every flag that is set as it is. -/
theorem EngineEvent.flags_sticky {s : State} {f : Engine} (h : EngineEvent s f) :
    nextTurn s = .reset ∨ commandAccepted s = some .init ∨
      ((s.engine.errCmd = true → f.errCmd = true) ∧ (s.engine.errBusy = true → f.errBusy = true) ∧
        (s.engine.lenOvf = true → f.lenOvf = true)) := by
  cases h with
  | reset ht => exact .inl ht
  | init ha => exact .inr (.inl ha)
  | accum => exact .inr (.inr ⟨by simp, by simp, engineAccum_lenOvf_sticky⟩)
  | push => exact .inr (.inr ⟨by simp, by simp, absorbList_lenOvf_sticky⟩)
  | same | round | data | dropped | rejected | final => exact .inr (.inr (by simp))

/-- Settles O38: every event but these two leaves the set flags set. -/
theorem stickyFlagsClearedOnlyByInitOrReset : Obligations.StickyFlagsClearedOnlyByInitOrReset := by
  intro s t h hcleared
  rcases (step_engineEvent h).flags_sticky with hreset | hinit | ⟨hcmd, hbusy, hovf⟩
  · exact .inl hreset
  · exact .inr hinit
  · rcases hcleared with ⟨hset, hclear⟩ | ⟨hset, hclear⟩ | ⟨hset, hclear⟩
    · cases (hcmd hset).symm.trans hclear
    · cases (hbusy hset).symm.trans hclear
    · cases (hovf hset).symm.trans hclear

/-! ### What sets a flag (R38, R191) -/

/-- An event that sets ERR_BUSY or ERR_CMD writes a word to CMD (R38). -/
theorem Event.commandEffect_of_error_set {s t : State} (h : Event s t)
    (hset : s.engine.errBusy = false ∧ t.engine.errBusy = true ∨ s.engine.errCmd = false ∧ t.engine.errCmd = true) :
    ∃ v p, commandOffered s = some v ∧ CommandEffect v ((s.withTurns s.turns.tail).withProg p) t := by
  cases h with
  | command v p t ht hp he => exact ⟨v, p, commandOffered_eq_some.mpr ⟨p, ht, hp⟩, he⟩
  | reset => simp [Engine.reset] at hset
  | engineIdle | round | accum | hostIdle | read | pollHit | pollMiss | writeData | writeIgnored => simp at hset

section CommandWord

variable {v : Word} {s t : State} (h : CommandEffect v s t)
include h

/-- A word sets ERR_BUSY only where it is dropped (R152, check 1). -/
theorem CommandEffect.busy_of_errBusy_set (hclear : s.engine.errBusy = false) (hset : t.engine.errBusy = true) :
    s.engine.stage ≠ .idle := by
  cases h with
  | dropped hb => exact hb
  | illegal | afterDone | init | push | final => simp [hclear] at hset

/-- A word sets ERR_CMD only where it is rejected while BUSY = 0 (R152, checks 2 and 3). -/
theorem CommandEffect.rejected_of_errCmd_set (hclear : s.engine.errCmd = false) (hset : t.engine.errCmd = true) :
    s.engine.stage = .idle ∧ ((∀ i, v ≠ encode i) ∨ s.engine.mode = .done ∧ v ≠ encode .init) := by
  cases h with
  | illegal why hi hd => exact ⟨hi, .inl ((decode_illegal_iff v).mp ⟨why, hd⟩)⟩
  | afterDone i hi hd hn hm =>
    refine ⟨hi, .inr ⟨hm, fun hv => hn ?_⟩⟩
    rw [hv, decode_encode, Decoded.command.injEq] at hd
    exact hd.symm
  | dropped | init | push | final => simp [hclear] at hset

end CommandWord

/-- Only absorbing sets LEN_OVF: a PUSH, or an accumulation step with bytes waiting (R153). -/
theorem EngineEvent.absorbs_of_lenOvf_set {s : State} {f : Engine} (h : EngineEvent s f)
    (hclear : s.engine.lenOvf = false) (hset : f.lenOvf = true) :
    (∃ nb, commandAccepted s = some (.push nb)) ∨
      nextTurn s = .engine ∧ s.engine.stage = .accum ∧ s.engine.pend ≠ [] := by
  cases h with
  | push nb ha => exact .inl ⟨nb, ha⟩
  | accum ht hs =>
    refine .inr ⟨ht, hs, fun hp => ?_⟩
    simp [engineAccum_lenOvf_of_pend_nil _ hp, hclear] at hset
  | reset => cases hset
  | same | round | data | dropped | rejected | init | final => simp [hclear] at hset

/-- Settles O39: the two error flags by what the word written to CMD does, LEN_OVF by what absorbs bytes. -/
theorem eachFlagHasOnlyItsOwnCause : Obligations.EachFlagHasOnlyItsOwnCause := by
  intro s t h
  refine ⟨fun hclear hset => ?_, fun hclear hset => ?_, (step_engineEvent h).absorbs_of_lenOvf_set⟩
  · obtain ⟨v, p, ho, he⟩ := (step_event h).commandEffect_of_error_set (.inl ⟨hclear, hset⟩)
    exact ⟨by simp [ho], he.busy_of_errBusy_set hclear hset⟩
  · obtain ⟨v, p, ho, he⟩ := (step_event h).commandEffect_of_error_set (.inr ⟨hclear, hset⟩)
    exact ⟨v, ho, he.rejected_of_errCmd_set hclear hset⟩

/-- Settles O11: the cause of ERR_BUSY needs BUSY = 1, that of ERR_CMD needs BUSY = 0. -/
theorem oneEventSetsAtMostOneCommandError : Obligations.OneEventSetsAtMostOneCommandError := by
  rintro s t h ⟨hbusyClear, hbusySet, hcmdClear, hcmdSet⟩
  obtain ⟨hbusy, hcmd, -⟩ := eachFlagHasOnlyItsOwnCause s t h
  obtain ⟨-, hstage⟩ := hbusy hbusyClear hbusySet
  obtain ⟨v, -, hidle, -⟩ := hcmd hcmdClear hcmdSet
  exact hstage hidle

/-! ### No command stops (R190) -/

/-- An idle engine has room for a byte (R39.1), so no command meets a full BUF. -/
theorem Inv.not_stopsAtFullBuf {s : State} (h : Inv s) (i : Instr) : ¬ StopsAtFullBuf i s := by
  rintro ⟨-, hi, -, hfull⟩
  obtain ⟨hroom, -, -⟩ := h.engine.idle hi
  omega

/-- Settles O15: a full BUF is the one state in which a command stops. -/
theorem everyCommandAnswersNext : Obligations.EveryCommandAnswersNext := by
  intro i s hinv
  rcases exec_cases i s with ⟨hstop, -⟩ | ⟨-, hnext⟩
  · exact absurd hstop (hinv.not_stopsAtFullBuf i)
  · exact hnext

end Sys2Proof.Machine
end

section
/-! PROOFS. The reset event beside INIT (R210, R211), and the two commands that can make BUSY = 1 (R161, R213). -/

namespace Sys2Proof.Machine

/-! ### Reset (R40, R210, R211) -/

/-- INIT leaves the engine's reset values, except in the elements R154 lists as unchanged. -/
theorem initCommand_eq_reset_with {e : Engine} (hi : e.stage = .idle) :
    initCommand e = { Engine.reset with data := e.data, buf := e.buf, wv := e.wv, rnd := e.rnd } := by
  rw [initCommand, hi]
  rfl

theorem reset_status : Engine.reset.status = 0 := by decide

/-- Settles O2: the reset event's next state holds `Engine.reset`, a fresh computation, and the host's part as it was. -/
theorem resetEventOverridesEverything : Obligations.ResetEventOverridesEverything := by
  intro s ht
  exact ⟨_, step_reset ht, fresh_reset, rfl, rfl, rfl, reset_status, rfl, rfl, rfl, rfl⟩

/-- Settles O3: the reset event answers `Engine.reset`, and INIT passes the checks of an idle engine. -/
theorem resetEqualsAcceptedInit : Obligations.ResetEqualsAcceptedInit := by
  intro s r i ht hreset hi hinit
  cases (step_reset ht).symm.trans hreset
  cases (exec_of_accepted hi fun hn => absurd rfl hn).symm.trans hinit
  exact initCommand_eq_reset_with hi

/-- Settles O50: the engine after reset is a fresh computation. -/
theorem resetTracksEmptyMessage : Obligations.ResetTracksEmptyMessage := fun lm => fresh_reset.tracks lm

/-! ### BUSY rises (R161, R213) -/

/-- A PUSH that leaves room in the block starts none (R155, R157). -/
theorem pushCommand_stage_of_room (m : LenMode) (nb : BitVec 2) {e : Engine} (hi : e.stage = .idle)
    (hroom : e.cnt + (nb.toNat + 1) < 64) : (pushCommand m nb e).stage = .idle := by
  obtain ⟨-, -, -, -, hstay, -⟩ := pushCommand_spec m nb hi (by omega)
  obtain ⟨hstage, -, -⟩ := hstay (Nat.le_of_lt_succ hroom)
  exact hstage

/-- Settles O37: an idle engine takes no step of its own, a reset leaves it idle, and of the host's events only FINAL and a
PUSH that fills the block start a block. -/
theorem busyRisesOnlyByFillingPushOrFinal : Obligations.BusyRisesOnlyByFillingPushOrFinal := by
  intro s t h hidle hbusy
  generalize t.engine = f, step_engineEvent h = he at hbusy
  cases he with
  | final ha => exact .inl ha
  | push nb ha hi =>
    refine .inr ⟨nb, ha, Nat.le_of_not_lt fun hroom => ?_⟩
    exact hbusy (pushCommand_stage_of_room _ nb hi hroom)
  | round ht hs | accum ht hs => cases hidle.symm.trans hs
  | reset => exact absurd rfl hbusy
  | same | data | dropped | rejected | init => exact absurd (by simpa using hidle) hbusy

end Sys2Proof.Machine
end
